-- ==== Sys2Proof/Word.lean ====
section
/-! DEFINITION. The word types of BFX (00_scope.md R5, R7). -/

namespace Sys2Proof

/-- A byte: 8 bits (R7). -/
abbrev Byte := BitVec 8

/-- A register-port word, a command word, or a buffer word (quadlet): 32 bits, `WORD_W` (R5). -/
abbrev Word := BitVec 32

/-- A field value, the operand register VAL or the result register RES: 64 bits, `VALUE_W` (R5). -/
abbrev Value := BitVec 64

end Sys2Proof
end

