-- ==== Sys2Proof/Config.lean ====
section
/-! DEFINITION. What an instance of BFX fixes, and the free value of the spec (00_scope.md R5, 93_implementation_defined.md U2, U13). -/

namespace Sys2Proof

/-- The two OPEN parameters of 00_scope.md R5. `hostLe` is `HOST_LE` (true: little-endian host) and `addrW` is `ADDR_W`,
the width of a buffer-memory byte address. Fixed for the life of an instance. -/
structure Params where
  hostLe : Bool
  addrW : Nat
  deriving DecidableEq, Repr

/-- The instance that `State.reset` is of. `ADDR_W = 32` is the default of R5. `HOST_LE = 1` is a
DESIGN CHOICE (R5 and D14 force no default; unsafe, log 1): statements quantify over both. -/
def Params.default : Params := ⟨true, 32⟩

/-- What the `n`-th HostRead of an unwritten descriptor-RAM entry returns in its 24 bits: a free value
(10_state.md R31, U2 "any value"; log 5). It has no body: nothing is provable of it. -/
opaque Config.unwrittenEntry : Nat → BitVec 24

end Sys2Proof
end

