-- ==== Sys2Proof/Machine/State.lean ====
section
/-! DEFINITION. The state of BFX, the host transactions it waits for, its stops, and the state after reset (10_state.md). -/

namespace Sys2Proof.Machine

/-- A FieldDescriptor, one 24-bit entry of the descriptor RAM (R27). All 8 bits of each field are stored. -/
structure Descriptor where
  wordIndex : BitVec 8
  bitOffset : BitVec 8
  bitWidth : BitVec 8
  deriving DecidableEq, Repr

/-- Four bytes of buffer memory in ascending address order: what one transaction of the memory port moves (R44). -/
structure Quad where
  b0 : Byte
  b1 : Byte
  b2 : Byte
  b3 : Byte
  deriving DecidableEq, Repr

/-- One transaction of the memory port (R11, R44), with its byte address and the four bytes moved. -/
inductive MemEvent where
  /-- `MemRead(addr, 4)` answered with these bytes. -/
  | read (addr : Nat) (bytes : Quad)
  /-- `MemWrite(addr, 4, bytes)`. -/
  | write (addr : Nat) (bytes : Quad)
  deriving DecidableEq, Repr

/-- The causes of InvalidArgument (R18, 60_exceptions.md R144 to R148). -/
inductive Cause where
  | bufAbsent
  | indexRange
  | badDescriptor
  | length
  | illegalCmd
  deriving DecidableEq, Repr

/-- The register that a word of the register space is (R12). -/
inductive Reg where
  | id
  | cap
  | cmd
  | status
  | bufBase
  | bufCtrl
  | bufLen
  | nfields
  | valLo
  | valHi
  | resLo
  | resHi
  | reserved
  | dt (i : BitVec 8)
  deriving DecidableEq, Repr

/-- What the outside does to BFX next. `reg` is the word number in the register space, the byte offset divided
by 4 (`reg_addr[10:2]` of R11; log 13), so every term is a transaction R11 allows. -/
inductive Transaction where
  /-- `HostWrite(4*reg, d)` (R13). -/
  | hostWrite (reg : BitVec 9) (d : Word)
  /-- `HostRead(4*reg)` (R13). -/
  | hostRead (reg : BitVec 9)
  /-- The caller stores one byte to the buffer memory by its own path, which makes it storage the caller owns
  (20_memory.md R40, R41, R55(b); log 4). -/
  | callerStore (addr : BitVec 32) (b : Byte)
  /-- `rst` asserted and released between transactions (R160). -/
  | reset
  /-- `HostWrite(0x008, w)` during which `rst` is asserted after the command's first `accesses` memory accesses
  (R162; log 9). -/
  | resetDuring (w : Word) (accesses : Nat)
  deriving DecidableEq, Repr

/-- Buffer memory: the bytes the caller provides, by address, addresses strictly rising. An address that is not
listed is outside the caller's storage (R41, R50; log 3). -/
abbrev Memory := List Host.Cell

/-- Why the machine stops with a fault: never. BFX has no trap (60_exceptions.md R140, R151), and InvalidArgument is a
value in STATUS, not a fault of the machine (00_scope.md R8). -/
inductive Fault
  deriving DecidableEq, Repr

/-- Why the model gives a command no step (00_scope.md R8, "Refused by the model"). -/
inductive Refusal where
  /-- An arm of `exec` without a meaning. Raised by none. Safe. -/
  | notModelled (mnemonic : String)
  /-- GETF or SETF passed the index check and selects a descriptor nothing has written since reset (10_state.md R31, U2).
  Raised by the two engine commands. Safe: the hardware does something the spec leaves unspecified. -/
  | unwrittenDescriptor
  /-- GETF or SETF makes a memory access that the buffer memory does not admit: outside the caller's storage
  (20_memory.md R50, U1), or a memory that does not answer (U15, log 10). Raised by the two engine commands.
  Safe: the hardware does something the spec leaves undefined. -/
  | outsideStorage
  deriving DecidableEq, Repr

/-- The state of one BFX instance, with the buffer memory it is attached to. -/
structure State where
  /-- The instance's parameters (R5, R33). No step changes them. -/
  params : Params
  /-- `STATUS[8:0]` (R18). -/
  status : BitVec 9
  /-- `BUF_BASE` (R19). -/
  bufBase : Word
  /-- `BUF_CTRL[1:0]`: `BUFV` is bit 0 and `LENCHK` bit 1 (R20). -/
  bufCtrl : BitVec 2
  /-- `BUF_LEN[15:0]` (R21). -/
  bufLen : BitVec 16
  /-- `NFIELDS[8:0]` (R22). -/
  nfields : BitVec 9
  /-- `VAL` (R23). -/
  val : Value
  /-- `RES` (R24). -/
  res : Value
  /-- The written entries of `DT`, by index, indices strictly rising; an entry not listed is unwritten (R26 to R31). -/
  dt : List (Nat × Descriptor)
  /-- The buffer memory (20_memory.md). -/
  mem : Memory
  /-- The model's own: the transactions still to be performed, oldest first (R13, R14, R33; log 2). -/
  port : List Transaction
  /-- The model's own: what the most recent HostRead returned (R11; log 6). -/
  rdata : Word
  /-- The model's own: the memory-port transactions performed so far, oldest first (R11, R53; log 7). -/
  memLog : List MemEvent
  /-- The model's own: how many free values have been drawn (U2; log 5). -/
  draws : Nat
  deriving DecidableEq, Repr

/-- Right after reset, for an instance with parameters `p` (R35, R160): every register 0, no descriptor written. The memory
lists nothing, no transaction is pending, and the model's own fields are empty (logs 2, 3, 5, 6, 7). -/
def State.resetOf (p : Params) : State :=
  { params := p, status := 0, bufBase := 0, bufCtrl := 0, bufLen := 0, nfields := 0, val := 0, res := 0,
    dt := [], mem := [], port := [], rdata := 0, memLog := [], draws := 0 }

/-- The machine right after reset (R35), for the parameters of log 1. -/
def State.reset : State := State.resetOf Params.default

end Sys2Proof.Machine
end

