-- ==== Sys2Proof/Machine/Flags.lean ====
section
/-! DEFINITION. The STATUS word, the only status BFX has (10_state.md R18, R34). -/

namespace Sys2Proof.Machine

/-- The number of a cause in `STATUS.CAUSE` (R18). -/
def causeCode : Cause → BitVec 3
  | .bufAbsent => 1
  | .indexRange => 2
  | .badDescriptor => 3
  | .length => 4
  | .illegalCmd => 5

/-- `STATUS[8:0]`: `RV ‖ 0 ‖ CAUSE ‖ 00 ‖ CODE`, the reserved bits 0 (R18). -/
def statusWord (code : BitVec 2) (cause : BitVec 3) (rv : Bool) : BitVec 9 :=
  BitVec.ofBool rv ++ (0 : BitVec 1) ++ cause ++ (0 : BitVec 2) ++ code

/-- `STATUS` of a completed command; `rv` says whether RES holds its result (R18). -/
def statusOk (rv : Bool) : BitVec 9 := statusWord 0 0 rv

/-- `STATUS` of a failed command (R18, R143). -/
def statusFailed (c : Cause) : BitVec 9 := statusWord 1 (causeCode c) false

/-- The field `STATUS.CODE` (R18). -/
def statusCode (st : BitVec 9) : BitVec 2 := st.extractLsb' 0 2

/-- The field `STATUS.CAUSE` (R18). -/
def statusCause (st : BitVec 9) : BitVec 3 := st.extractLsb' 4 3

/-- The field `STATUS.RV` (R18). -/
def statusRv (st : BitVec 9) : Bool := st.getLsbD 8

end Sys2Proof.Machine
end

