-- ==== Sys2Proof/Machine/Operands.lean ====
section
/-! DEFINITION. Byte order and operand forms: the byte-order adapter's functions, lane order, the descriptor word, and how an
adapter operand is taken from VAL and put into RES (00_scope.md R7, 30_encoding.md R67, 40_byte_order_adapter.md R80 to R82). -/

namespace Sys2Proof.Machine

/-- `bswap16(x)` (R80). -/
def bswap16 (x : BitVec 16) : BitVec 16 := x.extractLsb' 0 8 ++ x.extractLsb' 8 8

/-- `bswap32(x)` (R80). -/
def bswap32 (x : BitVec 32) : BitVec 32 :=
  x.extractLsb' 0 8 ++ x.extractLsb' 8 8 ++ x.extractLsb' 16 8 ++ x.extractLsb' 24 8

/-- `bswap64(x)` (R80). -/
def bswap64 (x : BitVec 64) : BitVec 64 :=
  x.extractLsb' 0 8 ++ x.extractLsb' 8 8 ++ x.extractLsb' 16 8 ++ x.extractLsb' 24 8 ++
    x.extractLsb' 32 8 ++ x.extractLsb' 40 8 ++ x.extractLsb' 48 8 ++ x.extractLsb' 56 8

/-- `hostToBE_16` on a host of byte order `le` (R81). -/
def hostToBE16 (le : Bool) (x : BitVec 16) : BitVec 16 := if le then bswap16 x else x

/-- `hostToBE_32` (R81). -/
def hostToBE32 (le : Bool) (x : BitVec 32) : BitVec 32 := if le then bswap32 x else x

/-- `hostToBE_64` (R81). -/
def hostToBE64 (le : Bool) (x : BitVec 64) : BitVec 64 := if le then bswap64 x else x

/-- `beToHost_16` (R81). -/
def beToHost16 (le : Bool) (x : BitVec 16) : BitVec 16 := if le then bswap16 x else x

/-- `beToHost_32` (R81). -/
def beToHost32 (le : Bool) (x : BitVec 32) : BitVec 32 := if le then bswap32 x else x

/-- `beToHost_64` (R81). -/
def beToHost64 (le : Bool) (x : BitVec 64) : BitVec 64 := if le then bswap64 x else x

/-- `be32(b0,b1,b2,b3)` (R7). -/
def be32 (q : Quad) : Word := q.b0 ++ q.b1 ++ q.b2 ++ q.b3

/-- `le32(b0,b1,b2,b3)` (R7). -/
def le32 (q : Quad) : Word := q.b3 ++ q.b2 ++ q.b1 ++ q.b0

/-- `bytes_be32(w)` (R7). -/
def bytesBe32 (w : Word) : Quad :=
  ⟨w.extractLsb' 24 8, w.extractLsb' 16 8, w.extractLsb' 8 8, w.extractLsb' 0 8⟩

/-- `bytes_le32(w)` (R7). -/
def bytesLe32 (w : Word) : Quad :=
  ⟨w.extractLsb' 0 8, w.extractLsb' 8 8, w.extractLsb' 16 8, w.extractLsb' 24 8⟩

/-- The bus value of four bytes, in host lane order (20_memory.md R46). -/
def rawOfBytes (le : Bool) (q : Quad) : Word := if le then le32 q else be32 q

/-- The four bytes of a bus value, in host lane order (R46). -/
def bytesOfRaw (le : Bool) (raw : Word) : Quad := if le then bytesLe32 raw else bytesBe32 raw

/-- The operand of an `n`-bit adapter command: `VAL[n-1:0]`, the bits above ignored (R82). -/
def operandOfVal (n : Nat) (v : Value) : BitVec n := v.setWidth n

/-- The result of an `n`-bit adapter command, zero-extended to 64 bits (R82). -/
def resultOf (n : Nat) (x : BitVec n) : Value := x.setWidth 64

/-- The descriptor in the low 24 bits of a register word (R28, R67). -/
def descriptorOfWord (d : Word) : Descriptor :=
  { bitWidth := d.extractLsb' 0 8, bitOffset := d.extractLsb' 8 8, wordIndex := d.extractLsb' 16 8 }

/-- The 24 bits of a descriptor: `word_index ‖ bit_offset ‖ bit_width` (R28, R67). -/
def descriptorBits (d : Descriptor) : BitVec 24 := d.wordIndex ++ d.bitOffset ++ d.bitWidth

end Sys2Proof.Machine
end

