-- ==== Sys2Proof/Machine/Ops.lean ====
section
/-! DEFINITION. The named operations over the buffer memory and the registers, and the one error BFX raises
(20_memory.md, 41_bitfield_engine.md R106, R107, 60_exceptions.md R143). -/

namespace Sys2Proof.Machine

/-- The value listed under a key. -/
def assocGet {α : Type} (k : Nat) : List (Nat × α) → Option α
  | [] => none
  | (a, v) :: rest => if k = a then some v else assocGet k rest

/-- List a value under a key, keeping keys that strictly rise strictly rising. -/
def assocSet {α : Type} (k : Nat) (v : α) : List (Nat × α) → List (Nat × α)
  | [] => [(k, v)]
  | (a, w) :: rest =>
    if k < a then (k, v) :: (a, w) :: rest
    else if k = a then (k, v) :: rest
    else (a, w) :: assocSet k v rest

/-- The keys strictly rise: the one canonical form of a list of pairs. -/
def rising {α : Type} : List (Nat × α) → Bool
  | [] => true
  | [_] => true
  | (a, _) :: (b, w) :: rest => decide (a < b) && rising ((b, w) :: rest)

/-- The canonical form of the buffer memory. An unlisted address has no value, so no entry can equal it. -/
def Memory.wf (m : Memory) : Bool := rising m

/-- What an unlisted address of the buffer memory reads as: no value, it is outside the caller's storage (R50; log 3). -/
def unlistedByte : Option Byte := none

/-- The byte at an address. -/
def Memory.read (m : Memory) (a : Nat) : Option Byte :=
  match assocGet a m with
  | some b => some b
  | none => unlistedByte

/-- An address reduced to the `ADDR_W` bits of the memory port (R7, R45). -/
def wrapAddr (s : State) (a : Nat) : Nat := a % 2 ^ s.params.addrW

/-- The buffer-memory byte at an address below `2^ADDR_W`. -/
def State.byteAt (s : State) (a : Nat) : Option Byte := s.mem.read a

/-- The address of buffer word `j`: `A(j) = (BUF_BASE + 4*j) mod 2^ADDR_W` (R45). -/
def wordAddr (s : State) (j : Nat) : Nat := wrapAddr s (s.bufBase.toNat + 4 * j)

/-- The four bytes at `A`, `A+1`, `A+2`, `A+3`, each address taken mod `2^ADDR_W`; `none` if one of them is not the caller's
(R7, R44, R50). -/
def quadAt (s : State) (addr : Nat) : Option Quad :=
  match s.byteAt (wrapAddr s addr), s.byteAt (wrapAddr s (addr + 1)),
    s.byteAt (wrapAddr s (addr + 2)), s.byteAt (wrapAddr s (addr + 3)) with
  | some b0, some b1, some b2, some b3 => some ⟨b0, b1, b2, b3⟩
  | _, _, _, _ => none

/-- Store one byte of the buffer memory, its address taken mod `2^ADDR_W`. -/
def setByte (addr : Nat) (b : Byte) (s : State) : State :=
  { s with mem := assocSet (wrapAddr s addr) b s.mem }

/-- Record a transaction of the memory port (log 7). -/
def logEvent (e : MemEvent) (s : State) : State := { s with memLog := s.memLog ++ [e] }

/-- `MemRead(addr, 4)` (R44): the bytes, and the state with the transaction recorded. -/
def memRead (s : State) (addr : Nat) : Option (Quad × State) :=
  match quadAt s addr with
  | some q => some (q, logEvent (.read addr q) s)
  | none => none

/-- The four bytes of a quad stored at `A` to `A+3`. -/
def setQuad (addr : Nat) (q : Quad) (s : State) : State :=
  setByte (addr + 3) q.b3 (setByte (addr + 2) q.b2 (setByte (addr + 1) q.b1 (setByte addr q.b0 s)))

/-- `MemWrite(addr, 4, bytes)` (R44), admitted only inside the caller's storage (R50). -/
def memWrite (s : State) (addr : Nat) (q : Quad) : Option State :=
  match quadAt s addr with
  | some _ => some (logEvent (.write addr q) (setQuad addr q s))
  | none => none

/-- `LoadWord(j)`: the four bytes as a host-order word, through the adapter (R106). -/
def loadWord (s : State) (j : Nat) : Option (Word × State) :=
  match memRead s (wordAddr s j) with
  | some (q, s') => some (beToHost32 s.params.hostLe (rawOfBytes s.params.hostLe q), s')
  | none => none

/-- `StoreWord(j, W)`: the word through the adapter, then stored in host order (R107). -/
def storeWord (s : State) (j : Nat) (w : Word) : Option State :=
  memWrite s (wordAddr s j) (bytesOfRaw s.params.hostLe (hostToBE32 s.params.hostLe w))

/-- The descriptor in entry `i` of the descriptor RAM; `none` while nothing has written it since reset (R31). -/
def State.descriptor (s : State) (i : BitVec 8) : Option Descriptor := assocGet i.toNat s.dt

/-- Write entry `i` of the descriptor RAM and mark it written, with no check of any kind (R28). -/
def setDescriptor (i : BitVec 8) (d : Descriptor) (s : State) : State :=
  { s with dt := assocSet i.toNat d s.dt }

/-- `BUF_CTRL.BUFV`: a buffer is present (R20). -/
def State.bufv (s : State) : Bool := s.bufCtrl.getLsbD 0

/-- `BUF_CTRL.LENCHK`: the length check is on (R20). -/
def State.lenchk (s : State) : Bool := s.bufCtrl.getLsbD 1

/-- `raise InvalidArgument(cause)`: the one way a command fails. Only STATUS changes (R7, R143). BFX has no vector, saves
nothing, and has no return from an error (R140, R151). -/
def raiseInvalidArgument (c : Cause) (s : State) : State := { s with status := statusFailed c }

/-- A command completes with a result: RES and STATUS are written (R82, R110). -/
def completeWithResult (r : Value) (s : State) : State := { s with res := r, status := statusOk true }

/-- A command completes without a result: STATUS is written, RES keeps its value (R111). -/
def completeWithoutResult (s : State) : State := { s with status := statusOk false }

/-- What reset makes of a state: the registers take their reset values and every descriptor becomes unwritten; the
buffer memory is not touched (R35, R160). The parameters and the model's own fields stay (log 8). -/
def resetRegisters (s : State) : State :=
  { State.resetOf s.params with
    mem := s.mem, port := s.port, rdata := s.rdata, memLog := s.memLog, draws := s.draws }

end Sys2Proof.Machine
end

