-- ==== Sys2Proof/Machine/Adapter.lean ====
section
/-! DEFINITION. The six commands of the byte-order adapter (40_byte_order_adapter.md R82 to R88). -/

namespace Sys2Proof.Machine

/-- The template of the adapter commands (R82): RES takes the zero-extended value of a function of the low `n` bits of VAL. -/
def adapterCommand (n : Nat) (fn : Bool → BitVec n → BitVec n) (s : State) : Host.Outcome State Fault Refusal :=
  .next (completeWithResult (resultOf n (fn s.params.hostLe (operandOfVal n s.val))) s)

/-- `HTOBE16` (R83). -/
def execHtobe16 (s : State) : Host.Outcome State Fault Refusal := adapterCommand 16 hostToBE16 s

/-- `HTOBE32` (R84). -/
def execHtobe32 (s : State) : Host.Outcome State Fault Refusal := adapterCommand 32 hostToBE32 s

/-- `HTOBE64` (R85). -/
def execHtobe64 (s : State) : Host.Outcome State Fault Refusal := adapterCommand 64 hostToBE64 s

/-- `BETOH16` (R86). -/
def execBetoh16 (s : State) : Host.Outcome State Fault Refusal := adapterCommand 16 beToHost16 s

/-- `BETOH32` (R87). -/
def execBetoh32 (s : State) : Host.Outcome State Fault Refusal := adapterCommand 32 beToHost32 s

/-- `BETOH64` (R88). -/
def execBetoh64 (s : State) : Host.Outcome State Fault Refusal := adapterCommand 64 beToHost64 s

end Sys2Proof.Machine
end

