-- ==== Sys2Proof/Syntax.lean ====
section
/-! DEFINITION. The eight instructions of BFX: one constructor per row of spec/opcode_table.json (00_scope.md R3). -/

namespace Sys2Proof

/-- A command of BFX (00_scope.md R3, 30_encoding.md R62). The one operand inside a command word is
`FIDX`, an unsigned 8-bit field index (R63); all other operands are registers (R61). -/
inductive Instr where
  /-- `GETF f`: extract a field (41_bitfield_engine.md R110). -/
  | getf (fidx : BitVec 8)
  /-- `SETF f`: inject a field (41_bitfield_engine.md R111). -/
  | setf (fidx : BitVec 8)
  /-- `HTOBE16` (40_byte_order_adapter.md R83). -/
  | htobe16
  /-- `HTOBE32` (40_byte_order_adapter.md R84). -/
  | htobe32
  /-- `HTOBE64` (40_byte_order_adapter.md R85). -/
  | htobe64
  /-- `BETOH16` (40_byte_order_adapter.md R86). -/
  | betoh16
  /-- `BETOH32` (40_byte_order_adapter.md R87). -/
  | betoh32
  /-- `BETOH64` (40_byte_order_adapter.md R88). -/
  | betoh64
  deriving DecidableEq, Repr

end Sys2Proof
end

