-- ==== Sys2Proof/Machine/Engine.lean ====
section
/-! DEFINITION. The bit-field engine: validation, chunks, and the commands GETF and SETF (41_bitfield_engine.md). -/

namespace Sys2Proof.Machine

/-- The number of buffer words a field touches (R104). -/
def nwords (bo bw : Nat) : Nat := if bw = 0 then 0 else (bo + bw + 31) / 32

/-- Check 3 of R102: `bit_width ≤ 64` and `bit_offset ≤ 31`. -/
def Descriptor.valid (d : Descriptor) : Bool := decide (d.bitWidth.toNat ≤ 64) && decide (d.bitOffset.toNat ≤ 31)

/-- The number of buffer words a descriptor's field touches (R104). -/
def Descriptor.nwords (d : Descriptor) : Nat := Machine.nwords d.bitOffset.toNat d.bitWidth.toNat

/-- The byte offset just past the last word a descriptor's field touches, `4 * (wi + nwords)` (R103). -/
def Descriptor.endOffset (d : Descriptor) : Nat := 4 * (d.wordIndex.toNat + d.nwords)

/-- The length check of R103 fails. -/
def lengthFails (d : Descriptor) (s : State) : Bool :=
  decide (0 < d.nwords) && decide (s.bufLen.toNat < d.endOffset)

/-- The outcome of the validation of R102. -/
inductive Validation where
  /-- All checks passed; the command acts on this descriptor. -/
  | passed (d : Descriptor)
  /-- The first check that failed. -/
  | failed (c : Cause)
  /-- The index check passed and the selected entry is unwritten (R31). -/
  | unwritten
  deriving DecidableEq, Repr

/-- The checks on the selected descriptor: 3 and 4 of R102. -/
def validateDescriptor (d : Descriptor) (s : State) : Validation :=
  if !d.valid then .failed .badDescriptor
  else if s.lenchk && lengthFails d s then .failed .length
  else .passed d

/-- The validation of GETF and SETF, in the order of R102. The descriptor is read only after the index check. -/
def validate (f : BitVec 8) (s : State) : Validation :=
  if !s.bufv then .failed .bufAbsent
  else if s.nfields.toNat ≤ f.toNat then .failed .indexRange
  else
    match s.descriptor f with
    | none => .unwritten
    | some d => validateDescriptor d s

/-- One chunk of a field: the part that lies in one buffer word (R105). -/
structure Chunk where
  /-- `j_k`, the buffer word of the chunk. -/
  word : Nat
  /-- `n_k`, its number of bits. -/
  width : Nat
  /-- `shift_k`, the weight of its lowest bit in the word. -/
  shift : Nat
  /-- `sig_k`, the weight of its lowest bit in the field value. -/
  sig : Nat
  deriving DecidableEq, Repr

/-- `ones(n)` as a 32-bit word (R7). -/
def ones32 (n : Nat) : Word := BitVec.ofNat 32 (2 ^ n - 1)

/-- `mask_k = ones(n_k) << shift_k` (R105). -/
def Chunk.mask (c : Chunk) : Word := ones32 c.width <<< c.shift

/-- Chunk `k` of the field `(wi, bo, bw)`, `p` bits of which lie in earlier chunks (R105). -/
def chunkAt (wi bo bw k p : Nat) : Chunk :=
  let o := if k = 0 then bo else 0
  let n := min (32 - o) (bw - p)
  { word := wi + k, width := n, shift := 32 - o - n, sig := bw - p - n }

/-- The chunks from number `k` on, while `p < bw`; at most `fuel` of them (R105). -/
def chunksFrom (wi bo bw : Nat) : Nat → Nat → Nat → List Chunk
  | 0, _, _ => []
  | fuel + 1, k, p =>
    if p < bw then
      chunkAt wi bo bw k p :: chunksFrom wi bo bw fuel (k + 1) (p + (chunkAt wi bo bw k p).width)
    else []

/-- The chunks of a descriptor's field, most significant first; three are enough for a valid descriptor (R104, R105). -/
def Descriptor.chunks (d : Descriptor) : List Chunk :=
  chunksFrom d.wordIndex.toNat d.bitOffset.toNat d.bitWidth.toNat 3 0 0

/-- The bits of a chunk, taken out of its word (R110). -/
def chunkOfWord (c : Chunk) (w : Word) : Word := (w &&& c.mask) >>> c.shift

/-- The loop of GETF: load each chunk's word and put its bits in their place in the result (R110). -/
def extractChunks : List Chunk → Value → State → Option (Value × State)
  | [], r, s => some (r, s)
  | c :: rest, r, s =>
    match loadWord s c.word with
    | some (w, s') => extractChunks rest (r ||| ((chunkOfWord c w).setWidth 64 <<< c.sig)) s'
    | none => none

/-- The value a field can hold of `VAL`: `VAL mod 2^bw` (R112). -/
def fieldValue (bw : Nat) (v : Value) : Value := BitVec.ofNat 64 (v.toNat % 2 ^ bw)

/-- A chunk's bits of the field value: `(v >> sig_k) mod 2^(n_k)` (R111). -/
def chunkOfValue (c : Chunk) (v : Value) : Word := BitVec.ofNat 32 ((v.toNat >>> c.sig) % 2 ^ c.width)

/-- The word with the chunk's bits replaced: `(W & not32(mask_k)) | (chunk << shift_k)` (R111). -/
def mergeChunk (c : Chunk) (v : Value) (w : Word) : Word :=
  (w &&& ~~~c.mask) ||| (chunkOfValue c v <<< c.shift)

/-- The loop of SETF: load each chunk's word and store it back with the chunk's bits replaced, whether or not that
changes it (R111). -/
def injectChunks (v : Value) : List Chunk → State → Option State
  | [], s => some s
  | c :: rest, s =>
    match loadWord s c.word with
    | some (w, s') =>
      match storeWord s' c.word (mergeChunk c v w) with
      | some s'' => injectChunks v rest s''
      | none => none
    | none => none

/-- The accesses and the result of GETF on a descriptor; the accumulator starts at 0 (R110). -/
def extractField (d : Descriptor) (s : State) : Option (Value × State) := extractChunks d.chunks 0 s

/-- The accesses of SETF on a descriptor (R111). -/
def injectField (d : Descriptor) (s : State) : Option State :=
  injectChunks (fieldValue d.bitWidth.toNat s.val) d.chunks s

/-- `GETF f` (R110). -/
def execGetf (f : BitVec 8) (s : State) : Host.Outcome State Fault Refusal :=
  match validate f s with
  | .failed c => .next (raiseInvalidArgument c s)
  | .unwritten => .refused .unwrittenDescriptor
  | .passed d =>
    match extractField d s with
    | some (r, s') => .next (completeWithResult r s')
    | none => .refused .outsideStorage

/-- `SETF f` (R111). -/
def execSetf (f : BitVec 8) (s : State) : Host.Outcome State Fault Refusal :=
  match validate f s with
  | .failed c => .next (raiseInvalidArgument c s)
  | .unwritten => .refused .unwrittenDescriptor
  | .passed d =>
    match injectField d s with
    | some s' => .next (completeWithoutResult s')
    | none => .refused .outsideStorage

/-- The first `n` accesses of GETF on a descriptor: one read a chunk (R53, R162). -/
def extractPrefix (d : Descriptor) (n : Nat) (s : State) : Option State :=
  match extractChunks (d.chunks.take n) 0 s with
  | some (_, s') => some s'
  | none => none

/-- The read of the chunk whose write a reset came before, if there is one. -/
def loadNext : List Chunk → State → Option State
  | [], s => some s
  | c :: _, s =>
    match loadWord s c.word with
    | some (_, s') => some s'
    | none => none

/-- The first `n` accesses of SETF on a descriptor: a read and a write a chunk, and the read alone of the next chunk where
`n` is odd (R53, R162). -/
def injectPrefix (d : Descriptor) (n : Nat) (s : State) : Option State :=
  match injectChunks (fieldValue d.bitWidth.toNat s.val) (d.chunks.take (n / 2)) s with
  | some s' => if n % 2 = 1 then loadNext (d.chunks.drop (n / 2)) s' else some s'
  | none => none

/-- A command abandoned after its first `n` memory accesses, before the registers take their reset values (R162). A command
that fails its checks, an illegal one and an adapter command make no access. -/
def abandonCommand (i : Option Instr) (n : Nat) (s : State) : Host.Outcome State Fault Refusal :=
  match i with
  | some (.getf f) =>
    match validate f s with
    | .failed _ => .next s
    | .unwritten => .refused .unwrittenDescriptor
    | .passed d =>
      match extractPrefix d n s with
      | some s' => .next s'
      | none => .refused .outsideStorage
  | some (.setf f) =>
    match validate f s with
    | .failed _ => .next s
    | .unwritten => .refused .unwrittenDescriptor
    | .passed d =>
      match injectPrefix d n s with
      | some s' => .next s'
      | none => .refused .outsideStorage
  | _ => .next s

end Sys2Proof.Machine
end

