-- ==== Sys2Proof/Machine/Dispatch.lean ====
section
/-! DEFINITION. The meaning of every instruction, one arm each (30_encoding.md R62). -/

namespace Sys2Proof.Machine

def exec (i : Instr) (s : State) : Host.Outcome State Fault Refusal :=
  match i with
  | .getf f => Sys2Proof.Machine.execGetf f s
  | .setf f => Sys2Proof.Machine.execSetf f s
  | .htobe16 => Sys2Proof.Machine.execHtobe16 s
  | .htobe32 => Sys2Proof.Machine.execHtobe32 s
  | .htobe64 => Sys2Proof.Machine.execHtobe64 s
  | .betoh16 => Sys2Proof.Machine.execBetoh16 s
  | .betoh32 => Sys2Proof.Machine.execBetoh32 s
  | .betoh64 => Sys2Proof.Machine.execBetoh64 s

end Sys2Proof.Machine
end

