-- ==== Sys2Proof/WellFormed.lean ====
section
/-! DEFINITION. Which terms are well formed: instance parameters (00_scope.md R5) and instructions (30_encoding.md R60, R63). -/

namespace Sys2Proof

/-- The range of the one bounded parameter: `12 ≤ ADDR_W ≤ 32` (R5, D12). -/
def Params.wf (p : Params) : Bool := decide (12 ≤ p.addrW) && decide (p.addrW ≤ 32)

/-- Every term of `Instr` can be encoded: the only operand is an 8-bit index and all 256 values are legal
(R60, R63), and the type holds no other. -/
def Instr.wf : Instr → Bool
  | .getf _ => true
  | .setf _ => true
  | .htobe16 => true
  | .htobe32 => true
  | .htobe64 => true
  | .betoh16 => true
  | .betoh32 => true
  | .betoh64 => true

end Sys2Proof
end

