-- ==== Sys2Proof/Decode.lean ====
section
/-! DEFINITION. The decoder and the encoder of the command word (30_encoding.md R60 to R66). -/

namespace Sys2Proof

/-- Why a command word is illegal (30_encoding.md R64). BFX reports all of them alike, as ILLEGAL_CMD (R148). -/
inductive IllegalWord where
  /-- `w[31:16] ≠ 0`. -/
  | nonzeroZ1
  /-- `w[7:4] ≠ 0`. -/
  | nonzeroZ0
  /-- `OP` in 0x0, 0x3 to 0x7, 0xB, 0xF. -/
  | reservedOp
  /-- An adapter operation with `FIDX ≠ 0`. -/
  | nonzeroFidx
  deriving DecidableEq, Repr

/-- The field `OP = w[3:0]` (R60). -/
def fieldOp (w : Word) : BitVec 4 := w.extractLsb' 0 4

/-- The reserved field `Z0 = w[7:4]` (R60). -/
def fieldZ0 (w : Word) : BitVec 4 := w.extractLsb' 4 4

/-- The field `FIDX = w[15:8]` (R60, R63). -/
def fieldFidx (w : Word) : BitVec 8 := w.extractLsb' 8 8

/-- The reserved field `Z1 = w[31:16]` (R60). -/
def fieldZ1 (w : Word) : BitVec 16 := w.extractLsb' 16 16

/-- An adapter operation takes no index: its `FIDX` must be 0 (R60, R64). -/
def withoutFidx (w : Word) (i : Instr) : Except IllegalWord Instr :=
  if fieldFidx w = 0 then .ok i else .error .nonzeroFidx

/-- The opcode map of R62. -/
def decodeOp (w : Word) : Except IllegalWord Instr :=
  match (fieldOp w).toNat with
  | 0x1 => .ok (.getf (fieldFidx w))
  | 0x2 => .ok (.setf (fieldFidx w))
  | 0x8 => withoutFidx w .htobe16
  | 0x9 => withoutFidx w .htobe32
  | 0xA => withoutFidx w .htobe64
  | 0xC => withoutFidx w .betoh16
  | 0xD => withoutFidx w .betoh32
  | 0xE => withoutFidx w .betoh64
  | _ => .error .reservedOp

/-- Decoding a command word: total, reads no state (R64, R65). -/
def decode (w : Word) : Except IllegalWord Instr :=
  if fieldZ1 w ≠ 0 then .error .nonzeroZ1
  else if fieldZ0 w ≠ 0 then .error .nonzeroZ0
  else decodeOp w

/-- The operation code of an instruction (R62). -/
def opOf : Instr → BitVec 4
  | .getf _ => 0x1
  | .setf _ => 0x2
  | .htobe16 => 0x8
  | .htobe32 => 0x9
  | .htobe64 => 0xA
  | .betoh16 => 0xC
  | .betoh32 => 0xD
  | .betoh64 => 0xE

/-- The field index an instruction carries; 0 for the adapter operations (R60). -/
def fidxOf : Instr → BitVec 8
  | .getf f => f
  | .setf f => f
  | .htobe16 => 0
  | .htobe32 => 0
  | .htobe64 => 0
  | .betoh16 => 0
  | .betoh32 => 0
  | .betoh64 => 0

/-- The command word of an instruction: `Z1 ‖ FIDX ‖ Z0 ‖ OP` (R60). -/
def encode (i : Instr) : Word := (0 : BitVec 16) ++ fidxOf i ++ (0 : BitVec 4) ++ opOf i

/-- The command word that the low `nbits` bits of `w` stand for: the one word of R60, bits above `nbits` 0. -/
def commandWordOf (nbits w : Nat) : Word := BitVec.ofNat 32 (w % 2 ^ nbits)

/-- What the decoder reads from an instruction whose bits are `w`; `none` where the word is illegal. A command is one
register-port word (R60), so no byte order enters. -/
def decodeTableWord (nbits w : Nat) : Option Instr :=
  match decode (commandWordOf nbits w) with
  | .ok i => some i
  | .error _ => none

end Sys2Proof
end

