-- ==== Sys2Proof/Machine/Port.lean ====
section
/-! DEFINITION. The register port: the register map, HostRead and HostWrite, and how a step takes the next transaction
(10_state.md R11 to R31, 70_reset_and_hazards.md R160, R162). -/

namespace Sys2Proof.Machine

/-- The word number of a byte offset of the register space (R11, R12). -/
def regWord (off : Nat) : BitVec 9 := BitVec.ofNat 9 (off / 4)

/-- The word number of `CMD` (R12). -/
def cmdReg : BitVec 9 := regWord 0x008

/-- The word number of `DT[i]`, byte offset `0x400 + 4*i` (R26). -/
def dtReg (i : BitVec 8) : BitVec 9 := regWord (0x400 + 4 * i.toNat)

/-- The register map of R12, by byte offset below 0x400. -/
def lowReg (off : Nat) : Reg :=
  match off with
  | 0x000 => .id
  | 0x004 => .cap
  | 0x008 => .cmd
  | 0x00C => .status
  | 0x010 => .bufBase
  | 0x014 => .bufCtrl
  | 0x018 => .bufLen
  | 0x01C => .nfields
  | 0x020 => .valLo
  | 0x024 => .valHi
  | 0x028 => .resLo
  | 0x02C => .resHi
  | _ => .reserved

/-- The register at a word of the register space (R12). -/
def regAt (reg : BitVec 9) : Reg :=
  if reg.toNat < 256 then lowReg (4 * reg.toNat) else .dt (BitVec.ofNat 8 (reg.toNat - 256))

/-- `ID`, hard-wired (R15). -/
def idWord : Word := 0x17220100

/-- `CAP`, hard-wired from the parameters: `ADDR_W` at 13:8, `LENCHK_IMPL = 1` at 1, `HOST_LE` at 0, all else 0 (R16). -/
def capWord (p : Params) : Word :=
  (0 : BitVec 18) ++ BitVec.ofNat 6 p.addrW ++ (0 : BitVec 6) ++ (1 : BitVec 1) ++ BitVec.ofBool p.hostLe

/-- `BUF_BASE` keeps the low `ADDR_W` bits of what is written (R19). -/
def bufBaseOf (p : Params) (d : Word) : Word := BitVec.ofNat 32 (d.toNat % 2 ^ p.addrW)

/-- The 24 bits a HostRead of `DT[i]` returns: the descriptor, or a free value while the entry is unwritten (R28, R31, U2). -/
def dtBits (i : BitVec 8) (s : State) : BitVec 24 :=
  match s.descriptor i with
  | some d => descriptorBits d
  | none => Config.unwrittenEntry s.draws

/-- What a HostRead of a register returns (R12: write-only and reserved locations read 0). -/
def regValue (r : Reg) (s : State) : Word :=
  match r with
  | .id => idWord
  | .cap => capWord s.params
  | .cmd => 0
  | .status => s.status.setWidth 32
  | .bufBase => s.bufBase
  | .bufCtrl => s.bufCtrl.setWidth 32
  | .bufLen => s.bufLen.setWidth 32
  | .nfields => s.nfields.setWidth 32
  | .valLo => s.val.extractLsb' 0 32
  | .valHi => s.val.extractLsb' 32 32
  | .resLo => s.res.extractLsb' 0 32
  | .resHi => s.res.extractLsb' 32 32
  | .reserved => 0
  | .dt i => (dtBits i s).setWidth 32

/-- How many free values have been drawn after a HostRead of a register: one more where it drew one. -/
def drawsAfterRead (r : Reg) (s : State) : Nat :=
  match r with
  | .dt i => if (s.descriptor i).isNone then s.draws + 1 else s.draws
  | _ => s.draws

/-- `HostRead` (R13): the value goes to the host and no state of BFX changes. -/
def hostRead (reg : BitVec 9) (s : State) : State :=
  { s with rdata := regValue (regAt reg) s, draws := drawsAfterRead (regAt reg) s }

/-- `HostWrite` to a register other than CMD: used bits stored, unused bits, read-only and reserved locations
ignored (R12, R18 to R28). A write to CMD stores nothing (R17); it starts a command, see `nextAction`. -/
def writeReg (r : Reg) (d : Word) (s : State) : State :=
  match r with
  | .id => s
  | .cap => s
  | .cmd => s
  | .status => s
  | .bufBase => { s with bufBase := bufBaseOf s.params d }
  | .bufCtrl => { s with bufCtrl := d.setWidth 2 }
  | .bufLen => { s with bufLen := d.setWidth 16 }
  | .nfields => { s with nfields := d.setWidth 9 }
  | .valLo => { s with val := s.val.extractLsb' 32 32 ++ d }
  | .valHi => { s with val := d ++ s.val.extractLsb' 0 32 }
  | .resLo => s
  | .resHi => s
  | .reserved => s
  | .dt i => setDescriptor i (descriptorOfWord d) s

/-- What a step is going to do. -/
inductive Action where
  /-- Run a command on a state from which its transaction has been taken. -/
  | command (i : Instr) (s : State)
  /-- The step's outcome, no command being run. -/
  | done (o : Host.Outcome State Fault Refusal)

/-- A write to CMD starts the command it encodes; an illegal word raises ILLEGAL_CMD (R17, R64, R148). -/
def startCommand (w : Word) (s : State) : Action :=
  match decode w with
  | .ok i => .command i s
  | .error _ => .done (.next (raiseInvalidArgument .illegalCmd s))

/-- A `HostWrite` (R13, R17). -/
def hostWriteAction (reg : BitVec 9) (d : Word) (s : State) : Action :=
  match regAt reg with
  | .cmd => startCommand d s
  | r => .done (.next (writeReg r d s))

/-- Reset during a command (R162): the accesses made so far stay made, and the registers take their reset values. -/
def resetDuringCommand (w : Word) (n : Nat) (s : State) : Host.Outcome State Fault Refusal :=
  match abandonCommand (decode w).toOption n s with
  | .next s' => .next (resetRegisters s')
  | .fault x => .fault x
  | .refused x => .refused x

/-- The transaction the host performs next, and the state without it; none while BFX waits (R13, R160). -/
def takeTransaction (s : State) : Option (Transaction × State) :=
  match s.port with
  | [] => none
  | t :: rest => some (t, { s with port := rest })

/-- What the next step does: perform the next transaction, or wait for one (R13, R160; log 2). -/
def nextAction (s : State) : Action :=
  match takeTransaction s with
  | none => .done (.next s)
  | some (.hostWrite reg d, s') => hostWriteAction reg d s'
  | some (.hostRead reg, s') => .done (.next (hostRead reg s'))
  | some (.callerStore addr b, s') => .done (.next (setByte addr.toNat b s'))
  | some (.reset, s') => .done (.next (resetRegisters s'))
  | some (.resetDuring w n, s') => .done (resetDuringCommand w n s')

/-- A command word as the next transaction: a write to CMD in front of what is pending. -/
def pushCommand (w : Word) (s : State) : State := { s with port := .hostWrite cmdReg w :: s.port }

end Sys2Proof.Machine
end

