-- ==== Sys2Proof/Machine/Step.lean ====
section
/-! DEFINITION. One step: the next host transaction, performed to its end (10_state.md R13, R14). -/

namespace Sys2Proof.Machine

/-- One step performs the next transaction of the host; a write to CMD runs the command to its end (R13, R17). -/
def step (s : State) : Host.Outcome State Fault Refusal :=
  match nextAction s with
  | .command i s' => exec i s'
  | .done o => o

/-- `s` with the command word `w` as the host's next transaction: a HostWrite of it to CMD (R60; log 2). -/
def State.withFetchWord (s : State) (nbits w : Nat) : State := pushCommand (commandWordOf nbits w) s

end Sys2Proof.Machine
end

