-- ==== Sys2Proof/Safety.lean ====
section
/-! DEFINITION. What counts as a sound state and a runnable command, and the buffer seen as a string of bits, in the terms
the statements use. -/

namespace Sys2Proof.Machine

/-- The seven words STATUS can hold (60_exceptions.md R143). -/
def legalStatus : List (BitVec 9) := [0x000, 0x100, 0x011, 0x021, 0x031, 0x041, 0x051]

/-- The invariant of the machine: legal parameters (R5), a legal STATUS word (R143), BUF_BASE within `ADDR_W` bits (R19),
and the buffer memory and the descriptor RAM in their one form, inside their address ranges (R26, R40). -/
abbrev State.Inv (s : State) : Prop :=
  s.params.wf = true ∧ s.status ∈ legalStatus ∧ s.bufBase.toNat < 2 ^ s.params.addrW ∧
    s.mem.wf = true ∧ (∀ c ∈ s.mem, c.1 < 2 ^ s.params.addrW) ∧
    rising s.dt = true ∧ (∀ e ∈ s.dt, e.1 < 256)

/-- The buffer bit at position `p`: bit `7 - p mod 8` of the byte `p div 8` of the buffer (41_bitfield_engine.md R101);
`none` where the byte is outside the caller's storage. -/
def bufferBit (s : State) (p : Nat) : Option Bool :=
  match s.byteAt (wrapAddr s (s.bufBase.toNat + p / 8)) with
  | some b => some (b.getLsbD (7 - p % 8))
  | none => none

/-- The first bit position of a descriptor's field, `S = 32*wi + bo` (R101). -/
def Descriptor.start (d : Descriptor) : Nat := 32 * d.wordIndex.toNat + d.bitOffset.toNat

/-- GETF or SETF of index `f` passes every check, and acts on `d`: a buffer is present, the index is in range, the entry is
written and holds `d`, `d` is valid, and where the length check is on, `d` passes it (R102, R103). -/
abbrev Accepts (s : State) (f : BitVec 8) (d : Descriptor) : Prop :=
  s.bufCtrl.getLsbD 0 = true ∧ f.toNat < s.nfields.toNat ∧ s.descriptor f = some d ∧
    d.bitWidth.toNat ≤ 64 ∧ d.bitOffset.toNat ≤ 31 ∧
    (s.bufCtrl.getLsbD 1 = true → 0 < d.nwords → 4 * (d.wordIndex.toNat + d.nwords) ≤ s.bufLen.toNat)

/-- The caller owns every byte of every buffer word that a descriptor's field touches (20_memory.md R52). -/
abbrev OwnsField (s : State) (d : Descriptor) : Prop :=
  ∀ k < d.nwords, ∀ b < 4, (s.byteAt (wrapAddr s (wordAddr s (d.wordIndex.toNat + k) + b))).isSome = true

/-- An address that is no byte of a buffer word the field of `d` touches. -/
abbrev OutsideField (s : State) (d : Descriptor) (a : Nat) : Prop :=
  ∀ k < d.nwords, ∀ b < 4, a ≠ wrapAddr s (wordAddr s (d.wordIndex.toNat + k) + b)

/-- The registers a reset sets (R35), all at their reset values. -/
abbrev State.RegistersReset (s : State) : Prop :=
  s.status = 0 ∧ s.bufBase = 0 ∧ s.bufCtrl = 0 ∧ s.bufLen = 0 ∧ s.nfields = 0 ∧ s.val = 0 ∧ s.res = 0 ∧
    ∀ i : BitVec 8, s.descriptor i = none

/-- Whether a memory-port transaction is a write, and its address. -/
def MemEvent.access : MemEvent → Bool × Nat
  | .read a _ => (false, a)
  | .write a _ => (true, a)

/-- The value of the buffer words `j, j+1, ...` (as many as `n`) as one big-endian number, after `x` (R115). -/
def wordsValue (s : State) : Nat → Nat → Nat → Option Nat
  | 0, _, x => some x
  | n + 1, j, x =>
    match quadAt s (wordAddr s j) with
    | some q => wordsValue s n (j + 1) (x * 2 ^ 32 + (be32 q).toNat)
    | none => none

end Sys2Proof.Machine
end

