-- ==== Sys2Proof/Certificates/Slice0/Obligations.lean ====
section
/-! DEFINITION. The statements for the provers: from the numbered rules of spec/. Nothing is proved here. -/

open Sys2Proof Sys2Proof.Machine

/-! ## Reset -/

/-- R35: what a reset leaves, from any state; and that, as long as no buffer is present, GETF and SETF fail with
BUF_ABSENT and change nothing else, so that no memory access can happen. -/
def Obligations.ResetGivesTheResetValues : Prop :=
  (∀ (s : State) (rest : List Transaction), s.port = .reset :: rest →
    ∃ t, step s = .next t ∧ t.RegistersReset ∧ t.mem = s.mem ∧ t.memLog = s.memLog ∧ t.port = rest ∧
      t.params = s.params ∧ regValue .id t = 0x17220100 ∧ regValue .cap t = regValue .cap s) ∧
  (∀ (u : State) (f : BitVec 8), u.bufCtrl.getLsbD 0 = false →
    exec (.getf f) u = .next { u with status := 0x011 } ∧ exec (.setf f) u = .next { u with status := 0x011 })

/-- The state after reset, for every instance, holds the register values of R35; `State.reset` is that of `ADDR_W = 32` (R5)
and, the model's choice (log 1), `HOST_LE = 1`. That it lists no byte of buffer memory is the model's choice as well (log 3). -/
def Obligations.ResetStateHoldsTheResetValues : Prop :=
  (∀ p : Params, (State.resetOf p).RegistersReset ∧ (State.resetOf p).params = p ∧ (State.resetOf p).mem = []) ∧
  State.reset = State.resetOf { hostLe := true, addrW := 32 }

/-- R162, for SETF: a reset after `n` memory accesses leaves the words of the finished read-write pairs as the whole SETF
would leave them, every other byte as it was, `n` accesses made (or all there are), and every register reset. -/
def Obligations.ResetDuringSetfKeepsThePrefix : Prop :=
  ∀ (s u : State) (f : BitVec 8) (d : Descriptor) (n : Nat) (rest : List Transaction),
    s.params.wf = true → Accepts s f d → OwnsField s d → exec (.setf f) s = .next u →
    s.port = .resetDuring (encode (.setf f)) n :: rest →
    ∃ t, step s = .next t ∧ t.RegistersReset ∧ t.params = s.params ∧ t.port = rest ∧
      t.memLog = s.memLog ++ (u.memLog.drop s.memLog.length).take n ∧
      (∀ k < d.nwords, k < n / 2 → ∀ b < 4,
        t.byteAt (wrapAddr s (wordAddr s (d.wordIndex.toNat + k) + b)) =
          u.byteAt (wrapAddr s (wordAddr s (d.wordIndex.toNat + k) + b))) ∧
      (∀ a, (∀ k < d.nwords, k < n / 2 → ∀ b < 4, a ≠ wrapAddr s (wordAddr s (d.wordIndex.toNat + k) + b)) →
        t.byteAt a = s.byteAt a)

/-- R162, for GETF: a reset after `n` memory accesses leaves memory as it was, `n` reads made (or all there are), and every
register reset. -/
def Obligations.ResetDuringGetfKeepsTheReads : Prop :=
  ∀ (s u : State) (f : BitVec 8) (d : Descriptor) (n : Nat) (rest : List Transaction),
    Accepts s f d → OwnsField s d → exec (.getf f) s = .next u →
    s.port = .resetDuring (encode (.getf f)) n :: rest →
    ∃ t, step s = .next t ∧ t.RegistersReset ∧ t.params = s.params ∧ t.port = rest ∧ t.mem = s.mem ∧
      t.memLog = s.memLog ++ (u.memLog.drop s.memLog.length).take n

/-! ## The register port -/

/-- R15: ID reads 0x17220100 in every state, and a write to it is ignored. -/
def Obligations.IdIsConstant : Prop :=
  ∀ (s : State) (d : Word) (rest : List Transaction),
    (s.port = .hostRead (regWord 0x000) :: rest → step s = .next { s with port := rest, rdata := 0x17220100 }) ∧
    (s.port = .hostWrite (regWord 0x000) d :: rest → step s = .next { s with port := rest })

/-- R16: CAP reads the parameters: HOST_LE in bit 0, 1 in bit 1, ADDR_W in bits 13:8 and 0 elsewhere. -/
def Obligations.CapReadsTheParameters : Prop :=
  ∀ (s : State) (rest : List Transaction), s.params.wf = true → s.port = .hostRead (regWord 0x004) :: rest →
    ∃ t, step s = .next t ∧ t = { s with port := rest, rdata := t.rdata } ∧
      t.rdata.toNat = s.params.hostLe.toNat + 2 + 2 ^ 8 * s.params.addrW

/-- R12: what a HostRead of each register returns; no state of BFX changes by it. -/
def Obligations.HostReadReturnsTheRegister : Prop :=
  ∀ (s : State) (rest : List Transaction) (off : Nat) (v : Word),
    (off, v) ∈ [(0x008, 0), (0x00C, s.status.setWidth 32), (0x010, s.bufBase), (0x014, s.bufCtrl.setWidth 32),
      (0x018, s.bufLen.setWidth 32), (0x01C, s.nfields.setWidth 32), (0x020, s.val.extractLsb' 0 32),
      (0x024, s.val.extractLsb' 32 32), (0x028, s.res.extractLsb' 0 32), (0x02C, s.res.extractLsb' 32 32)] →
    s.port = .hostRead (regWord off) :: rest →
    step s = .next { s with port := rest, rdata := v }

/-- R25: reserved offsets read 0 and ignore writes, and record no error. -/
def Obligations.ReservedOffsetsReadZeroAndIgnoreWrites : Prop :=
  ∀ (s : State) (d : Word) (rest : List Transaction) (off : Nat), 0x030 ≤ off → off ≤ 0x3FC → off % 4 = 0 →
    (s.port = .hostRead (regWord off) :: rest → step s = .next { s with port := rest, rdata := 0 }) ∧
    (s.port = .hostWrite (regWord off) d :: rest → step s = .next { s with port := rest })

/-- R12 (RO): a HostWrite to ID, CAP, STATUS, RES_LO or RES_HI changes nothing and records no error. -/
def Obligations.ReadOnlyRegistersIgnoreWrites : Prop :=
  ∀ (s : State) (d : Word) (rest : List Transaction) (off : Nat), off ∈ [0x000, 0x004, 0x00C, 0x028, 0x02C] →
    s.port = .hostWrite (regWord off) d :: rest → step s = .next { s with port := rest }

/-- R19 to R23: what a HostWrite stores in each of the writable configuration and operand registers, and that it changes
nothing else; a write to one half of VAL leaves the other. -/
def Obligations.HostWriteStoresTheUsedBits : Prop :=
  ∀ (s : State) (d : Word) (rest : List Transaction),
    (s.port = .hostWrite (regWord 0x010) d :: rest →
      ∃ t, step s = .next t ∧ t = { s with port := rest, bufBase := t.bufBase } ∧
        t.bufBase.toNat = d.toNat % 2 ^ s.params.addrW) ∧
    (s.port = .hostWrite (regWord 0x014) d :: rest →
      step s = .next { s with port := rest, bufCtrl := d.extractLsb' 0 2 }) ∧
    (s.port = .hostWrite (regWord 0x018) d :: rest →
      step s = .next { s with port := rest, bufLen := d.extractLsb' 0 16 }) ∧
    (s.port = .hostWrite (regWord 0x01C) d :: rest →
      step s = .next { s with port := rest, nfields := d.extractLsb' 0 9 }) ∧
    (s.port = .hostWrite (regWord 0x020) d :: rest →
      ∃ t, step s = .next t ∧ t = { s with port := rest, val := t.val } ∧
        t.val.extractLsb' 0 32 = d ∧ t.val.extractLsb' 32 32 = s.val.extractLsb' 32 32) ∧
    (s.port = .hostWrite (regWord 0x024) d :: rest →
      ∃ t, step s = .next t ∧ t = { s with port := rest, val := t.val } ∧
        t.val.extractLsb' 32 32 = d ∧ t.val.extractLsb' 0 32 = s.val.extractLsb' 0 32)

/-- R12 (RW): what is written to a writable register is read back in the next transaction, its unused bits 0. -/
def Obligations.WriteThenReadReturnsTheUsedBits : Prop :=
  ∀ (s : State) (d : Word) (rest : List Transaction) (off w : Nat), s.params.wf = true →
    (off, w) ∈ [(0x010, s.params.addrW), (0x014, 2), (0x018, 16), (0x01C, 9), (0x020, 32), (0x024, 32)] ∨
      (w = 24 ∧ ∃ i : BitVec 8, off = 0x400 + 4 * i.toNat) →
    s.port = .hostWrite (regWord off) d :: .hostRead (regWord off) :: rest →
    ∃ t u, step s = .next t ∧ step t = .next u ∧ u.rdata.toNat = d.toNat % 2 ^ w

/-- R28: a HostWrite to `DT[i]` stores the three fields with no check and marks the entry written; a HostRead returns them;
no command writes DT. -/
def Obligations.DescriptorWriteStoresTheFields : Prop :=
  (∀ (s : State) (i : BitVec 8) (d : Word) (rest : List Transaction),
    s.port = .hostWrite (regWord (0x400 + 4 * i.toNat)) d :: rest →
    ∃ t, step s = .next t ∧ t = { s with port := rest, dt := t.dt } ∧
      t.descriptor i = some { bitWidth := d.extractLsb' 0 8, bitOffset := d.extractLsb' 8 8, wordIndex := d.extractLsb' 16 8 } ∧
      ∀ j, j ≠ i → t.descriptor j = s.descriptor j) ∧
  (∀ (s : State) (i : BitVec 8) (e : Descriptor) (rest : List Transaction), s.descriptor i = some e →
    s.port = .hostRead (regWord (0x400 + 4 * i.toNat)) :: rest →
    ∃ t, step s = .next t ∧ t = { s with port := rest, rdata := t.rdata } ∧
      t.rdata.toNat = e.wordIndex.toNat * 2 ^ 16 + e.bitOffset.toNat * 2 ^ 8 + e.bitWidth.toNat) ∧
  (∀ (i : Instr) (s t : State), exec i s = .next t → t.dt = s.dt)

/-- R31, U2: a HostRead of an entry nothing has written since reset returns some 24-bit value, bits 31:24 zero, whichever
free value is drawn; nothing of BFX changes. -/
def Obligations.UnwrittenDescriptorReadsSomeValue : Prop :=
  ∀ (s : State) (i : BitVec 8) (rest : List Transaction), s.descriptor i = none →
    s.port = .hostRead (regWord (0x400 + 4 * i.toNat)) :: rest →
    ∃ t, step s = .next t ∧ t = { s with port := rest, rdata := t.rdata, draws := t.draws } ∧ t.rdata.toNat < 2 ^ 24

/-- The caller's own store (R40, R55(b); the model's transaction, log 4): the byte at that address, taken mod `2^ADDR_W`,
becomes the byte stored, and nothing else changes. -/
def Obligations.CallerStoreWritesOneByte : Prop :=
  ∀ (s : State) (addr : BitVec 32) (v : Byte) (rest : List Transaction), s.port = .callerStore addr v :: rest →
    ∃ t, step s = .next t ∧ t = { s with port := rest, mem := t.mem } ∧
      t.byteAt (addr.toNat % 2 ^ s.params.addrW) = some v ∧
      ∀ a, a ≠ addr.toNat % 2 ^ s.params.addrW → t.byteAt a = s.byteAt a

/-! ## Decoding and the step -/

/-- R62: every instruction's word decodes to that instruction. -/
def Obligations.DecodeOfEncodeIsTheInstruction : Prop := ∀ i : Instr, i.wf = true → decode (encode i) = .ok i

/-- R65: every 32-bit word is either exactly one of the eight instructions or illegal: a word decodes to an instruction
only if it is that instruction's word. -/
def Obligations.DecodedWordsAreExactlyTheEncodings : Prop :=
  ∀ w : Word, (∃ i, decode w = .ok i ∧ w = encode i ∧ ∀ j, w = encode j → j = i) ∨
    ((∃ e, decode w = .error e) ∧ ∀ j, w ≠ encode j)

/-- R62: the opcode map, by its match and mask words; a word that matches no row is illegal. -/
def Obligations.DecodeFollowsTheOpcodeMap : Prop :=
  ∀ w : Word,
    (w &&& 0xFFFF00FF = 0x00000001 ↔ decode w = .ok (.getf (w.extractLsb' 8 8))) ∧
    (w &&& 0xFFFF00FF = 0x00000002 ↔ decode w = .ok (.setf (w.extractLsb' 8 8))) ∧
    (w &&& 0xFFFFFFFF = 0x00000008 ↔ decode w = .ok .htobe16) ∧
    (w &&& 0xFFFFFFFF = 0x00000009 ↔ decode w = .ok .htobe32) ∧
    (w &&& 0xFFFFFFFF = 0x0000000A ↔ decode w = .ok .htobe64) ∧
    (w &&& 0xFFFFFFFF = 0x0000000C ↔ decode w = .ok .betoh16) ∧
    (w &&& 0xFFFFFFFF = 0x0000000D ↔ decode w = .ok .betoh32) ∧
    (w &&& 0xFFFFFFFF = 0x0000000E ↔ decode w = .ok .betoh64) ∧
    (w &&& 0xFFFF00FF ∉ [(0x00000001 : Word), 0x00000002] →
      w ∉ [(0x00000008 : Word), 0x00000009, 0x0000000A, 0x0000000C, 0x0000000D, 0x0000000E] → ∃ e, decode w = .error e)

/-- R64: the illegal words, by their fields; each raises ILLEGAL_CMD and does nothing else; all other words are legal. -/
def Obligations.IllegalWordsRaiseIllegalCmd : Prop :=
  ∀ w : Word,
    ((w.extractLsb' 0 4 ∈ [(0x0 : BitVec 4), 0x3, 0x4, 0x5, 0x6, 0x7, 0xB, 0xF] ∨ w.extractLsb' 4 4 ≠ 0 ∨
        w.extractLsb' 16 16 ≠ 0 ∨ (w.getLsbD 3 = true ∧ w.extractLsb' 8 8 ≠ 0)) →
      ∀ (s : State) (rest : List Transaction), s.port = .hostWrite (regWord 0x008) w :: rest →
        step s = .next { s with port := rest, status := 0x051 }) ∧
    (¬ (w.extractLsb' 0 4 ∈ [(0x0 : BitVec 4), 0x3, 0x4, 0x5, 0x6, 0x7, 0xB, 0xF] ∨ w.extractLsb' 4 4 ≠ 0 ∨
        w.extractLsb' 16 16 ≠ 0 ∨ (w.getLsbD 3 = true ∧ w.extractLsb' 8 8 ≠ 0)) →
      ∃ i, decode w = .ok i)

/-- 95_test_vectors.md section 3.6: words written out from R60 and R62, and what they decode to. -/
def Obligations.WrittenOutWordsDecode : Prop :=
  decode 0x00000101 = .ok (.getf 1) ∧ decode 0x0000FF02 = .ok (.setf 255) ∧
  decode 0x00000008 = .ok .htobe16 ∧ decode 0x0000000A = .ok .htobe64 ∧ decode 0x0000000D = .ok .betoh32

/-- R13, R17: when the next transaction is a HostWrite to CMD of a word that decodes to `i`, the step takes the transaction
and runs `i` to its end; and `withFetchWord` makes exactly that the next transaction. -/
def Obligations.StepRunsTheDecodedCommand : Prop :=
  (∀ (s : State) (w : Word) (i : Instr) (rest : List Transaction),
    s.port = .hostWrite (regWord 0x008) w :: rest → decode w = .ok i → step s = exec i { s with port := rest }) ∧
  (∀ (s : State) (w : Word) (i : Instr), decode w = .ok i → step (s.withFetchWord 32 w.toNat) = exec i s)

/-- The model's choice (log 2), after R160 ("it waits for host transactions"): with no transaction pending the step leaves
the state as it is. -/
def Obligations.StepWaitsForATransaction : Prop := ∀ s : State, s.port = [] → step s = .next s

/-! ## The adapter -/

/-- R83, with the template R82: the word of HTOBE16; on every state it completes, RES and STATUS are as given, nothing else
changes. -/
def Obligations.Htobe16ResultAndFrame : Prop :=
  decode 0x00000008 = .ok .htobe16 ∧ ∀ s : State, exec .htobe16 s = .next { s with
    res := if s.params.hostLe then ((s.val &&& 0xFF) <<< 8) ||| ((s.val >>> 8) &&& 0xFF) else s.val &&& 0xFFFF
    status := 0x100 }

/-- R84, with the template R82: the word of HTOBE32; on every state it completes, RES and STATUS are as given, nothing else
changes. -/
def Obligations.Htobe32ResultAndFrame : Prop :=
  decode 0x00000009 = .ok .htobe32 ∧ ∀ s : State, exec .htobe32 s = .next { s with
    res := if s.params.hostLe then
        ((s.val &&& 0xFF) <<< 24) ||| (((s.val >>> 8) &&& 0xFF) <<< 16) |||
          (((s.val >>> 16) &&& 0xFF) <<< 8) ||| ((s.val >>> 24) &&& 0xFF)
      else s.val &&& 0xFFFFFFFF
    status := 0x100 }

/-- R85, with the template R82: the word of HTOBE64; on every state it completes, RES and STATUS are as given, nothing else
changes. -/
def Obligations.Htobe64ResultAndFrame : Prop :=
  decode 0x0000000A = .ok .htobe64 ∧ ∀ s : State, exec .htobe64 s = .next { s with
    res := if s.params.hostLe then
        ((s.val &&& 0xFF) <<< 56) ||| (((s.val >>> 8) &&& 0xFF) <<< 48) |||
          (((s.val >>> 16) &&& 0xFF) <<< 40) ||| (((s.val >>> 24) &&& 0xFF) <<< 32) |||
          (((s.val >>> 32) &&& 0xFF) <<< 24) ||| (((s.val >>> 40) &&& 0xFF) <<< 16) |||
          (((s.val >>> 48) &&& 0xFF) <<< 8) ||| ((s.val >>> 56) &&& 0xFF)
      else s.val
    status := 0x100 }

/-- R86, with the template R82: as HTOBE16 does for the same VAL. -/
def Obligations.Betoh16ResultAndFrame : Prop :=
  decode 0x0000000C = .ok .betoh16 ∧ ∀ s : State, exec .betoh16 s = .next { s with
    res := if s.params.hostLe then ((s.val &&& 0xFF) <<< 8) ||| ((s.val >>> 8) &&& 0xFF) else s.val &&& 0xFFFF
    status := 0x100 } ∧ exec .betoh16 s = exec .htobe16 s

/-- R87, with the template R82: as HTOBE32 does for the same VAL. -/
def Obligations.Betoh32ResultAndFrame : Prop :=
  decode 0x0000000D = .ok .betoh32 ∧ ∀ s : State, exec .betoh32 s = .next { s with
    res := if s.params.hostLe then
        ((s.val &&& 0xFF) <<< 24) ||| (((s.val >>> 8) &&& 0xFF) <<< 16) |||
          (((s.val >>> 16) &&& 0xFF) <<< 8) ||| ((s.val >>> 24) &&& 0xFF)
      else s.val &&& 0xFFFFFFFF
    status := 0x100 } ∧ exec .betoh32 s = exec .htobe32 s

/-- R88, with the template R82: as HTOBE64 does for the same VAL. -/
def Obligations.Betoh64ResultAndFrame : Prop :=
  decode 0x0000000E = .ok .betoh64 ∧ ∀ s : State, exec .betoh64 s = .next { s with
    res := if s.params.hostLe then
        ((s.val &&& 0xFF) <<< 56) ||| (((s.val >>> 8) &&& 0xFF) <<< 48) |||
          (((s.val >>> 16) &&& 0xFF) <<< 40) ||| (((s.val >>> 24) &&& 0xFF) <<< 32) |||
          (((s.val >>> 32) &&& 0xFF) <<< 24) ||| (((s.val >>> 40) &&& 0xFF) <<< 16) |||
          (((s.val >>> 48) &&& 0xFF) <<< 8) ||| ((s.val >>> 56) &&& 0xFF)
      else s.val
    status := 0x100 } ∧ exec .betoh64 s = exec .htobe64 s

/-- R89(b): converting there and back gives the operand again, for each width and each host. With VAL set to the result of the
first command, the second command's RES is the low `N` bits of the first VAL. -/
def Obligations.AdapterCommandsAreInvolutions : Prop :=
  ∀ (s t u : State) (i j : Instr) (n : Nat),
    (i, j, n) ∈ [(.htobe16, .betoh16, 16), (.htobe16, .htobe16, 16), (.htobe32, .betoh32, 32), (.htobe32, .htobe32, 32),
      (.htobe64, .betoh64, 64), (.htobe64, .htobe64, 64)] →
    exec i s = .next t → exec j { t with val := t.res } = .next u → u.res.toNat = s.val.toNat % 2 ^ n

/-! ## The engine: words and chunks -/

/-- R108: for both byte orders of the host, LoadWord gives the four bytes read as a big-endian number, and StoreWord writes
the big-endian bytes of the word. -/
def Obligations.WordAccessesAreBigEndian : Prop :=
  ∀ (s : State) (j : Nat) (q : Quad), quadAt s (wordAddr s j) = some q →
    (∃ s', loadWord s j = some (be32 q, s') ∧ s' = { s with memLog := s.memLog ++ [.read (wordAddr s j) q] }) ∧
    (∀ w : Word, ∃ s', storeWord s j w = some s' ∧
      s' = { s with mem := s'.mem, memLog := s.memLog ++ [.write (wordAddr s j) (bytesBe32 w)] } ∧
      (s.params.wf = true → quadAt s' (wordAddr s j) = some (bytesBe32 w)) ∧
      ∀ a, (∀ b < 4, a ≠ wrapAddr s (wordAddr s j + b)) → s'.byteAt a = s.byteAt a)

/-- R104: a valid field has `nwords` chunks, at most three, of the buffer words from `word_index` on; their widths add up to the
field's. -/
def Obligations.FieldHasNwordsChunks : Prop :=
  ∀ d : Descriptor, d.bitWidth.toNat ≤ 64 → d.bitOffset.toNat ≤ 31 →
    d.nwords = (if d.bitWidth.toNat = 0 then 0 else (d.bitOffset.toNat + d.bitWidth.toNat + 31) / 32) ∧
      d.chunks.length = d.nwords ∧ d.nwords ≤ 3 ∧
      (d.chunks.map Chunk.width).sum = d.bitWidth.toNat ∧
      d.chunks.map Chunk.word = (List.range d.nwords).map (d.wordIndex.toNat + ·)

/-- R114: every intermediate of the chunk algorithm fits its width. -/
def Obligations.ChunkQuantitiesFitTheirWidths : Prop :=
  ∀ (d : Descriptor) (c : Chunk) (w : Word) (v : Value), d.bitWidth.toNat ≤ 64 → d.bitOffset.toNat ≤ 31 → c ∈ d.chunks →
    1 ≤ c.width ∧ c.width ≤ 32 ∧ c.shift + c.width ≤ 32 ∧ c.sig + c.width ≤ d.bitWidth.toNat ∧ c.word ≤ 257 ∧
      (chunkOfWord c w).toNat < 2 ^ c.width ∧ (chunkOfValue c v).toNat < 2 ^ c.width ∧
      (chunkOfWord c w).toNat <<< c.sig < 2 ^ d.bitWidth.toNat

/-- R119: the table of chunk splits, as (bo, bw), then width and mask of each chunk and the shift of the first. -/
def Obligations.ChunkSplitTable : Prop :=
  ∀ bo bw sh0 : Nat, ∀ splits : List (Nat × Word),
    (bo, bw, sh0, splits) ∈ ([(0, 1, 31, [(1, 0x80000000)]), (31, 1, 0, [(1, 0x00000001)]), (0, 7, 25, [(7, 0xFE000000)]),
      (7, 9, 16, [(9, 0x01FF0000)]), (0, 8, 24, [(8, 0xFF000000)]), (24, 8, 0, [(8, 0x000000FF)]),
      (24, 16, 0, [(8, 0x000000FF), (8, 0xFF000000)]), (16, 16, 0, [(16, 0x0000FFFF)]), (8, 24, 0, [(24, 0x00FFFFFF)]),
      (3, 29, 0, [(29, 0x1FFFFFFF)]), (20, 29, 0, [(12, 0x00000FFF), (17, 0xFFFF8000)]), (0, 32, 0, [(32, 0xFFFFFFFF)]),
      (16, 32, 0, [(16, 0x0000FFFF), (16, 0xFFFF0000)]), (0, 64, 0, [(32, 0xFFFFFFFF), (32, 0xFFFFFFFF)]),
      (1, 64, 0, [(31, 0x7FFFFFFF), (32, 0xFFFFFFFF), (1, 0x80000000)]),
      (31, 64, 0, [(1, 0x00000001), (32, 0xFFFFFFFF), (31, 0xFFFFFFFE)]),
      (31, 2, 0, [(1, 0x00000001), (1, 0x80000000)])] : List (Nat × Nat × Nat × List (Nat × Word))) →
    ∀ wi : BitVec 8,
      let d : Descriptor := { wordIndex := wi, bitOffset := BitVec.ofNat 8 bo, bitWidth := BitVec.ofNat 8 bw }
      d.chunks.map (fun c => (c.width, c.mask)) = splits ∧ (d.chunks.map Chunk.shift).head? = some sh0

/-! ## The engine: failures and stops -/

/-- R102, R143: the checks in their order. The first that fails gives STATUS its cause and changes nothing else. -/
def Obligations.FailedChecksReportInOrder : Prop :=
  ∀ (s : State) (f : BitVec 8) (i : Instr), i = .getf f ∨ i = .setf f →
    (s.bufCtrl.getLsbD 0 = false → exec i s = .next { s with status := 0x011 }) ∧
    (s.bufCtrl.getLsbD 0 = true → s.nfields.toNat ≤ f.toNat → exec i s = .next { s with status := 0x021 }) ∧
    (∀ d : Descriptor, s.bufCtrl.getLsbD 0 = true → f.toNat < s.nfields.toNat → s.descriptor f = some d →
      ((64 < d.bitWidth.toNat ∨ 31 < d.bitOffset.toNat) → exec i s = .next { s with status := 0x031 }) ∧
      (d.bitWidth.toNat ≤ 64 → d.bitOffset.toNat ≤ 31 → s.bufCtrl.getLsbD 1 = true → 0 < d.bitWidth.toNat →
        s.bufLen.toNat < 4 * (d.wordIndex.toNat + (d.bitOffset.toNat + d.bitWidth.toNat + 31) / 32) →
        exec i s = .next { s with status := 0x041 }))

/-- R145: an index that is not below NFIELDS is out of range, the table not being read; with NFIELDS = 0 every index is, and
with NFIELDS of 256 or more none is. -/
def Obligations.IndexRangeAtTheEndsOfNfields : Prop :=
  ∀ (s : State) (f : BitVec 8) (i : Instr), i = .getf f ∨ i = .setf f → s.bufCtrl.getLsbD 0 = true →
    (s.nfields.toNat ≤ f.toNat → exec i s = .next { s with status := 0x021 }) ∧
    (s.nfields = 0 → exec i s = .next { s with status := 0x021 }) ∧
    (∀ d : Descriptor, 256 ≤ s.nfields.toNat → s.descriptor f = some d → d.bitWidth.toNat ≤ 64 → d.bitOffset.toNat ≤ 31 →
      s.bufCtrl.getLsbD 1 = false → OwnsField s d →
      ∃ t, exec i s = .next t ∧ statusCode t.status = 0)

/-- R21, R147: with LENCHK = 0 a command does the same whatever BUF_LEN holds, and never fails with LENGTH. -/
def Obligations.BufLenHasNoEffectWithoutLenchk : Prop :=
  ∀ (s : State) (i : Instr) (len : BitVec 16), s.bufCtrl.getLsbD 1 = false →
    (∀ t, exec i s = .next t → exec i { s with bufLen := len } = .next { t with bufLen := len } ∧ statusCause t.status ≠ 4) ∧
    (∀ r, exec i s = .refused r → exec i { s with bufLen := len } = .refused r)

/-- R121: a command that GETF or SETF reports as failed has changed STATUS alone; one it reports as completed has passed
every check. -/
def Obligations.EngineCommandsNeverFinishHalfway : Prop :=
  ∀ (s t : State) (f : BitVec 8) (i : Instr), i = .getf f ∨ i = .setf f → exec i s = .next t →
    (t = { s with status := t.status } ∧ t.status ∈ [0x011, 0x021, 0x031, 0x041]) ∨
    ((∃ d, Accepts s f d ∧ OwnsField s d) ∧ statusCode t.status = 0 ∧ statusCause t.status = 0)

/-- R31 (R8, U2): GETF and SETF that pass the index check and select an entry nothing has written since reset are refused. -/
def Obligations.UnwrittenDescriptorIsRefused : Prop :=
  ∀ (s : State) (f : BitVec 8) (i : Instr), i = .getf f ∨ i = .setf f →
    s.bufCtrl.getLsbD 0 = true → f.toNat < s.nfields.toNat → s.descriptor f = none →
    exec i s = .refused .unwrittenDescriptor

/-- R50 (R8, U1): GETF and SETF that pass every check but touch a byte outside the caller's storage are refused. -/
def Obligations.AccessOutsideTheStorageIsRefused : Prop :=
  ∀ (s : State) (f : BitVec 8) (d : Descriptor) (i : Instr), i = .getf f ∨ i = .setf f →
    Accepts s f d → ¬ OwnsField s d → exec i s = .refused .outsideStorage

/-! ## The engine: GETF and SETF -/

/-- R113: a zero width completes without an access, whatever the storage and the length. -/
def Obligations.ZeroWidthFieldTouchesNothing : Prop :=
  ∀ (s : State) (f : BitVec 8) (d : Descriptor),
    s.bufCtrl.getLsbD 0 = true → f.toNat < s.nfields.toNat → s.descriptor f = some d → d.bitWidth = 0 →
    d.bitOffset.toNat ≤ 31 →
    exec (.getf f) s = .next { s with res := 0, status := 0x100 } ∧ exec (.setf f) s = .next { s with status := 0x000 }

/-- R115 with R110: GETF completes; RES is the field's bits, the bit at `S` the most significant; beside RES and STATUS only the
record of the memory port changes. -/
def Obligations.GetfReadsTheFieldBits : Prop :=
  ∀ (s : State) (f : BitVec 8) (d : Descriptor), Accepts s f d → OwnsField s d →
    ∃ t, exec (.getf f) s = .next t ∧
      t = { s with res := t.res, status := 0x100, memLog := t.memLog } ∧
      t.res.toNat = ∑ i ∈ Finset.range d.bitWidth.toNat,
        (if bufferBit s (d.start + i) = some true then 1 else 0) * 2 ^ (d.bitWidth.toNat - 1 - i)

/-- R115, the second form: with `X` the touched words as one big-endian number, RES is
`(X >> (32*nwords - bo - bw)) mod 2^bw`. -/
def Obligations.GetfCutsTheFieldFromTheWords : Prop :=
  ∀ (s : State) (f : BitVec 8) (d : Descriptor), Accepts s f d → OwnsField s d →
    ∃ t x, exec (.getf f) s = .next t ∧ wordsValue s d.nwords d.wordIndex.toNat 0 = some x ∧
      t.res.toNat = (x >>> (32 * d.nwords - d.bitOffset.toNat - d.bitWidth.toNat)) % 2 ^ d.bitWidth.toNat

/-- R116 with R111: SETF completes; every buffer bit of the field takes the bit of VAL, every other keeps its value; beside
STATUS and memory only the record of the memory port changes. Positions range over the address space. -/
def Obligations.SetfWritesTheFieldBits : Prop :=
  ∀ (s : State) (f : BitVec 8) (d : Descriptor), s.params.wf = true → Accepts s f d → OwnsField s d →
    ∃ t, exec (.setf f) s = .next t ∧
      t = { s with mem := t.mem, status := 0x000, memLog := t.memLog } ∧
      ∀ p, p / 8 < 2 ^ s.params.addrW →
        bufferBit t p =
          if d.start ≤ p ∧ p < d.start + d.bitWidth.toNat then
            some (s.val.getLsbD (d.bitWidth.toNat - 1 - (p - d.start)))
          else bufferBit s p

/-- R111: the frame of SETF. It changes no byte outside the words its field touches, at any address of any state; a SETF that
fails changes no byte. -/
def Obligations.SetfChangesOnlyTheTouchedWords : Prop :=
  ∀ (s t : State) (f : BitVec 8), exec (.setf f) s = .next t →
    t = { s with mem := t.mem, status := t.status, memLog := t.memLog } ∧
    (statusCode t.status ≠ 0 → t.mem = s.mem) ∧
    (∀ (d : Descriptor) (a : Nat), s.descriptor f = some d → OutsideField s d a → t.byteAt a = s.byteAt a)

/-- R53: the accesses of GETF and SETF, in their order, one after the other. -/
def Obligations.EngineAccessesInOrder : Prop :=
  ∀ (s : State) (f : BitVec 8) (d : Descriptor), Accepts s f d → OwnsField s d →
    (∃ t l, exec (.getf f) s = .next t ∧ t.memLog = s.memLog ++ l ∧
      l.map MemEvent.access = (List.range d.nwords).map (fun k => (false, wordAddr s (d.wordIndex.toNat + k)))) ∧
    (∃ t l, exec (.setf f) s = .next t ∧ t.memLog = s.memLog ++ l ∧
      l.map MemEvent.access = (List.range d.nwords).flatMap
        (fun k => [(false, wordAddr s (d.wordIndex.toNat + k)), (true, wordAddr s (d.wordIndex.toNat + k))]))

/-- R45, R173: a command accesses whole words `j ≤ 257` of the buffer alone, at most six times; with LENCHK = 1 every one of
them lies inside BUF_LEN (R51). -/
def Obligations.EngineReachIsBounded : Prop :=
  ∀ (s t : State) (i : Instr), exec i s = .next t →
    ∃ l, t.memLog = s.memLog ++ l ∧ l.length ≤ 6 ∧
      ∀ e ∈ l, ∃ j, j ≤ 257 ∧ e.access.2 = wordAddr s j ∧ (s.bufCtrl.getLsbD 1 = true → 4 * j + 3 < s.bufLen.toNat)

/-- R112: SETF with VAL and SETF with `VAL mod 2^bw` have the same effects. -/
def Obligations.SetfTruncatesTheValue : Prop :=
  ∀ (s t : State) (f : BitVec 8) (d : Descriptor) (v : Value), s.descriptor f = some d →
    v.toNat = s.val.toNat % 2 ^ d.bitWidth.toNat →
    exec (.setf f) s = .next t → exec (.setf f) { s with val := v } = .next { t with val := v }

/-- R117: SETF and then GETF of the same field give back `VAL mod 2^bw`. -/
def Obligations.SetfThenGetfRoundTrip : Prop :=
  ∀ (s : State) (f : BitVec 8) (d : Descriptor), s.params.wf = true → Accepts s f d → OwnsField s d →
    ∃ t u, exec (.setf f) s = .next t ∧ exec (.getf f) t = .next u ∧ u.status = 0x100 ∧
      u.res.toNat = s.val.toNat % 2 ^ d.bitWidth.toNat

/-- R118: two GETF of a field in a row give the same RES and STATUS, and two identical SETF leave memory as one does. -/
def Obligations.RepeatedCommandsAreIdempotent : Prop :=
  ∀ (s t : State) (f : BitVec 8), s.params.wf = true →
    (exec (.getf f) s = .next t → ∃ u, exec (.getf f) t = .next u ∧ u.res = t.res ∧ u.status = t.status) ∧
    (exec (.setf f) s = .next t → ∃ u, exec (.setf f) t = .next u ∧ ∀ a, u.byteAt a = t.byteAt a)

/-- R6: what GETF and SETF do does not depend on HOST_LE: on the instance of the other byte order they end in the same way and
leave the same state but for that parameter. -/
def Obligations.EngineIgnoresTheHostByteOrder : Prop :=
  ∀ (s : State) (f : BitVec 8) (i : Instr) (le : Bool), i = .getf f ∨ i = .setf f →
    (∀ t, exec i s = .next t →
      exec i { s with params := { s.params with hostLe := le } } =
        .next { t with params := { s.params with hostLe := le } }) ∧
    (∀ r, exec i s = .refused r → exec i { s with params := { s.params with hostLe := le } } = .refused r)

/-! ## The whole machine -/

/-- R32: what each command can change. -/
def Obligations.CommandsChangeOnlyTheirState : Prop :=
  ∀ (i : Instr) (s t : State), exec i s = .next t →
    t = { s with res := t.res, status := t.status, mem := t.mem, memLog := t.memLog } ∧
    ((∀ f, i ≠ .setf f) → t.mem = s.mem) ∧
    ((∃ f, i = .setf f) → t.res = s.res) ∧
    ((∀ f, i ≠ .getf f) → (∀ f, i ≠ .setf f) → t.memLog = s.memLog)

/-- R33, R81: no step changes the parameters of the instance. -/
def Obligations.NoStepChangesTheParameters : Prop := ∀ s t : State, step s = .next t → t.params = s.params

/-- Every step keeps the invariant: STATUS is one of the seven words of R143, BUF_BASE fits `ADDR_W` bits (R19), the memory and
the descriptor RAM keep their one form and their ranges, the parameters stay legal. -/
def Obligations.EveryStepKeepsTheStateSound : Prop := ∀ s t : State, s.Inv → step s = .next t → t.Inv

/-- The state after reset meets the invariant, for every legal instance, `State.reset` among them. -/
def Obligations.ResetStateIsSound : Prop :=
  (∀ p : Params, p.wf = true → (State.resetOf p).Inv) ∧ State.reset.Inv
end

