-- ==== Sys2Proof/Laws/State.lean ====
section
/-! SUPPORT. What each named update of the state does to each field: true by rfl, so that no proof unfolds a record update. -/

namespace Sys2Proof.Machine

variable (s : State)

/-! raiseInvalidArgument -/

@[simp] theorem raiseInvalidArgument_params (c : Cause) : (raiseInvalidArgument c s).params = s.params := rfl
@[simp] theorem raiseInvalidArgument_status (c : Cause) : (raiseInvalidArgument c s).status = statusFailed c := rfl
@[simp] theorem raiseInvalidArgument_bufBase (c : Cause) : (raiseInvalidArgument c s).bufBase = s.bufBase := rfl
@[simp] theorem raiseInvalidArgument_bufCtrl (c : Cause) : (raiseInvalidArgument c s).bufCtrl = s.bufCtrl := rfl
@[simp] theorem raiseInvalidArgument_bufLen (c : Cause) : (raiseInvalidArgument c s).bufLen = s.bufLen := rfl
@[simp] theorem raiseInvalidArgument_nfields (c : Cause) : (raiseInvalidArgument c s).nfields = s.nfields := rfl
@[simp] theorem raiseInvalidArgument_val (c : Cause) : (raiseInvalidArgument c s).val = s.val := rfl
@[simp] theorem raiseInvalidArgument_res (c : Cause) : (raiseInvalidArgument c s).res = s.res := rfl
@[simp] theorem raiseInvalidArgument_dt (c : Cause) : (raiseInvalidArgument c s).dt = s.dt := rfl
@[simp] theorem raiseInvalidArgument_mem (c : Cause) : (raiseInvalidArgument c s).mem = s.mem := rfl
@[simp] theorem raiseInvalidArgument_port (c : Cause) : (raiseInvalidArgument c s).port = s.port := rfl
@[simp] theorem raiseInvalidArgument_rdata (c : Cause) : (raiseInvalidArgument c s).rdata = s.rdata := rfl
@[simp] theorem raiseInvalidArgument_memLog (c : Cause) : (raiseInvalidArgument c s).memLog = s.memLog := rfl
@[simp] theorem raiseInvalidArgument_draws (c : Cause) : (raiseInvalidArgument c s).draws = s.draws := rfl

/-! completeWithResult -/

@[simp] theorem completeWithResult_params (r : Value) : (completeWithResult r s).params = s.params := rfl
@[simp] theorem completeWithResult_status (r : Value) : (completeWithResult r s).status = statusOk true := rfl
@[simp] theorem completeWithResult_bufBase (r : Value) : (completeWithResult r s).bufBase = s.bufBase := rfl
@[simp] theorem completeWithResult_bufCtrl (r : Value) : (completeWithResult r s).bufCtrl = s.bufCtrl := rfl
@[simp] theorem completeWithResult_bufLen (r : Value) : (completeWithResult r s).bufLen = s.bufLen := rfl
@[simp] theorem completeWithResult_nfields (r : Value) : (completeWithResult r s).nfields = s.nfields := rfl
@[simp] theorem completeWithResult_val (r : Value) : (completeWithResult r s).val = s.val := rfl
@[simp] theorem completeWithResult_res (r : Value) : (completeWithResult r s).res = r := rfl
@[simp] theorem completeWithResult_dt (r : Value) : (completeWithResult r s).dt = s.dt := rfl
@[simp] theorem completeWithResult_mem (r : Value) : (completeWithResult r s).mem = s.mem := rfl
@[simp] theorem completeWithResult_port (r : Value) : (completeWithResult r s).port = s.port := rfl
@[simp] theorem completeWithResult_rdata (r : Value) : (completeWithResult r s).rdata = s.rdata := rfl
@[simp] theorem completeWithResult_memLog (r : Value) : (completeWithResult r s).memLog = s.memLog := rfl
@[simp] theorem completeWithResult_draws (r : Value) : (completeWithResult r s).draws = s.draws := rfl

/-! completeWithoutResult -/

@[simp] theorem completeWithoutResult_params : (completeWithoutResult s).params = s.params := rfl
@[simp] theorem completeWithoutResult_status : (completeWithoutResult s).status = statusOk false := rfl
@[simp] theorem completeWithoutResult_bufBase : (completeWithoutResult s).bufBase = s.bufBase := rfl
@[simp] theorem completeWithoutResult_bufCtrl : (completeWithoutResult s).bufCtrl = s.bufCtrl := rfl
@[simp] theorem completeWithoutResult_bufLen : (completeWithoutResult s).bufLen = s.bufLen := rfl
@[simp] theorem completeWithoutResult_nfields : (completeWithoutResult s).nfields = s.nfields := rfl
@[simp] theorem completeWithoutResult_val : (completeWithoutResult s).val = s.val := rfl
@[simp] theorem completeWithoutResult_res : (completeWithoutResult s).res = s.res := rfl
@[simp] theorem completeWithoutResult_dt : (completeWithoutResult s).dt = s.dt := rfl
@[simp] theorem completeWithoutResult_mem : (completeWithoutResult s).mem = s.mem := rfl
@[simp] theorem completeWithoutResult_port : (completeWithoutResult s).port = s.port := rfl
@[simp] theorem completeWithoutResult_rdata : (completeWithoutResult s).rdata = s.rdata := rfl
@[simp] theorem completeWithoutResult_memLog : (completeWithoutResult s).memLog = s.memLog := rfl
@[simp] theorem completeWithoutResult_draws : (completeWithoutResult s).draws = s.draws := rfl

/-! setByte -/

@[simp] theorem setByte_params (a : Nat) (b : Byte) : (setByte a b s).params = s.params := rfl
@[simp] theorem setByte_status (a : Nat) (b : Byte) : (setByte a b s).status = s.status := rfl
@[simp] theorem setByte_bufBase (a : Nat) (b : Byte) : (setByte a b s).bufBase = s.bufBase := rfl
@[simp] theorem setByte_bufCtrl (a : Nat) (b : Byte) : (setByte a b s).bufCtrl = s.bufCtrl := rfl
@[simp] theorem setByte_bufLen (a : Nat) (b : Byte) : (setByte a b s).bufLen = s.bufLen := rfl
@[simp] theorem setByte_nfields (a : Nat) (b : Byte) : (setByte a b s).nfields = s.nfields := rfl
@[simp] theorem setByte_val (a : Nat) (b : Byte) : (setByte a b s).val = s.val := rfl
@[simp] theorem setByte_res (a : Nat) (b : Byte) : (setByte a b s).res = s.res := rfl
@[simp] theorem setByte_dt (a : Nat) (b : Byte) : (setByte a b s).dt = s.dt := rfl
@[simp] theorem setByte_mem (a : Nat) (b : Byte) : (setByte a b s).mem = assocSet (wrapAddr s a) b s.mem := rfl
@[simp] theorem setByte_port (a : Nat) (b : Byte) : (setByte a b s).port = s.port := rfl
@[simp] theorem setByte_rdata (a : Nat) (b : Byte) : (setByte a b s).rdata = s.rdata := rfl
@[simp] theorem setByte_memLog (a : Nat) (b : Byte) : (setByte a b s).memLog = s.memLog := rfl
@[simp] theorem setByte_draws (a : Nat) (b : Byte) : (setByte a b s).draws = s.draws := rfl

/-! logEvent -/

@[simp] theorem logEvent_params (e : MemEvent) : (logEvent e s).params = s.params := rfl
@[simp] theorem logEvent_status (e : MemEvent) : (logEvent e s).status = s.status := rfl
@[simp] theorem logEvent_bufBase (e : MemEvent) : (logEvent e s).bufBase = s.bufBase := rfl
@[simp] theorem logEvent_bufCtrl (e : MemEvent) : (logEvent e s).bufCtrl = s.bufCtrl := rfl
@[simp] theorem logEvent_bufLen (e : MemEvent) : (logEvent e s).bufLen = s.bufLen := rfl
@[simp] theorem logEvent_nfields (e : MemEvent) : (logEvent e s).nfields = s.nfields := rfl
@[simp] theorem logEvent_val (e : MemEvent) : (logEvent e s).val = s.val := rfl
@[simp] theorem logEvent_res (e : MemEvent) : (logEvent e s).res = s.res := rfl
@[simp] theorem logEvent_dt (e : MemEvent) : (logEvent e s).dt = s.dt := rfl
@[simp] theorem logEvent_mem (e : MemEvent) : (logEvent e s).mem = s.mem := rfl
@[simp] theorem logEvent_port (e : MemEvent) : (logEvent e s).port = s.port := rfl
@[simp] theorem logEvent_rdata (e : MemEvent) : (logEvent e s).rdata = s.rdata := rfl
@[simp] theorem logEvent_memLog (e : MemEvent) : (logEvent e s).memLog = s.memLog ++ [e] := rfl
@[simp] theorem logEvent_draws (e : MemEvent) : (logEvent e s).draws = s.draws := rfl

/-! setQuad -/

@[simp] theorem setQuad_params (a : Nat) (q : Quad) : (setQuad a q s).params = s.params := rfl
@[simp] theorem setQuad_status (a : Nat) (q : Quad) : (setQuad a q s).status = s.status := rfl
@[simp] theorem setQuad_bufBase (a : Nat) (q : Quad) : (setQuad a q s).bufBase = s.bufBase := rfl
@[simp] theorem setQuad_bufCtrl (a : Nat) (q : Quad) : (setQuad a q s).bufCtrl = s.bufCtrl := rfl
@[simp] theorem setQuad_bufLen (a : Nat) (q : Quad) : (setQuad a q s).bufLen = s.bufLen := rfl
@[simp] theorem setQuad_nfields (a : Nat) (q : Quad) : (setQuad a q s).nfields = s.nfields := rfl
@[simp] theorem setQuad_val (a : Nat) (q : Quad) : (setQuad a q s).val = s.val := rfl
@[simp] theorem setQuad_res (a : Nat) (q : Quad) : (setQuad a q s).res = s.res := rfl
@[simp] theorem setQuad_dt (a : Nat) (q : Quad) : (setQuad a q s).dt = s.dt := rfl
@[simp] theorem setQuad_port (a : Nat) (q : Quad) : (setQuad a q s).port = s.port := rfl
@[simp] theorem setQuad_rdata (a : Nat) (q : Quad) : (setQuad a q s).rdata = s.rdata := rfl
@[simp] theorem setQuad_memLog (a : Nat) (q : Quad) : (setQuad a q s).memLog = s.memLog := rfl
@[simp] theorem setQuad_draws (a : Nat) (q : Quad) : (setQuad a q s).draws = s.draws := rfl

/-! setDescriptor -/

@[simp] theorem setDescriptor_params (i : BitVec 8) (d : Descriptor) : (setDescriptor i d s).params = s.params := rfl
@[simp] theorem setDescriptor_status (i : BitVec 8) (d : Descriptor) : (setDescriptor i d s).status = s.status := rfl
@[simp] theorem setDescriptor_bufBase (i : BitVec 8) (d : Descriptor) : (setDescriptor i d s).bufBase = s.bufBase := rfl
@[simp] theorem setDescriptor_bufCtrl (i : BitVec 8) (d : Descriptor) : (setDescriptor i d s).bufCtrl = s.bufCtrl := rfl
@[simp] theorem setDescriptor_bufLen (i : BitVec 8) (d : Descriptor) : (setDescriptor i d s).bufLen = s.bufLen := rfl
@[simp] theorem setDescriptor_nfields (i : BitVec 8) (d : Descriptor) : (setDescriptor i d s).nfields = s.nfields := rfl
@[simp] theorem setDescriptor_val (i : BitVec 8) (d : Descriptor) : (setDescriptor i d s).val = s.val := rfl
@[simp] theorem setDescriptor_res (i : BitVec 8) (d : Descriptor) : (setDescriptor i d s).res = s.res := rfl
@[simp] theorem setDescriptor_dt (i : BitVec 8) (d : Descriptor) : (setDescriptor i d s).dt = assocSet i.toNat d s.dt := rfl
@[simp] theorem setDescriptor_mem (i : BitVec 8) (d : Descriptor) : (setDescriptor i d s).mem = s.mem := rfl
@[simp] theorem setDescriptor_port (i : BitVec 8) (d : Descriptor) : (setDescriptor i d s).port = s.port := rfl
@[simp] theorem setDescriptor_rdata (i : BitVec 8) (d : Descriptor) : (setDescriptor i d s).rdata = s.rdata := rfl
@[simp] theorem setDescriptor_memLog (i : BitVec 8) (d : Descriptor) : (setDescriptor i d s).memLog = s.memLog := rfl
@[simp] theorem setDescriptor_draws (i : BitVec 8) (d : Descriptor) : (setDescriptor i d s).draws = s.draws := rfl

/-! resetRegisters -/

@[simp] theorem resetRegisters_params : (resetRegisters s).params = s.params := rfl
@[simp] theorem resetRegisters_status : (resetRegisters s).status = 0 := rfl
@[simp] theorem resetRegisters_bufBase : (resetRegisters s).bufBase = 0 := rfl
@[simp] theorem resetRegisters_bufCtrl : (resetRegisters s).bufCtrl = 0 := rfl
@[simp] theorem resetRegisters_bufLen : (resetRegisters s).bufLen = 0 := rfl
@[simp] theorem resetRegisters_nfields : (resetRegisters s).nfields = 0 := rfl
@[simp] theorem resetRegisters_val : (resetRegisters s).val = 0 := rfl
@[simp] theorem resetRegisters_res : (resetRegisters s).res = 0 := rfl
@[simp] theorem resetRegisters_dt : (resetRegisters s).dt = [] := rfl
@[simp] theorem resetRegisters_mem : (resetRegisters s).mem = s.mem := rfl
@[simp] theorem resetRegisters_port : (resetRegisters s).port = s.port := rfl
@[simp] theorem resetRegisters_rdata : (resetRegisters s).rdata = s.rdata := rfl
@[simp] theorem resetRegisters_memLog : (resetRegisters s).memLog = s.memLog := rfl
@[simp] theorem resetRegisters_draws : (resetRegisters s).draws = s.draws := rfl

/-! pushCommand -/

@[simp] theorem pushCommand_params (w : Word) : (pushCommand w s).params = s.params := rfl
@[simp] theorem pushCommand_status (w : Word) : (pushCommand w s).status = s.status := rfl
@[simp] theorem pushCommand_bufBase (w : Word) : (pushCommand w s).bufBase = s.bufBase := rfl
@[simp] theorem pushCommand_bufCtrl (w : Word) : (pushCommand w s).bufCtrl = s.bufCtrl := rfl
@[simp] theorem pushCommand_bufLen (w : Word) : (pushCommand w s).bufLen = s.bufLen := rfl
@[simp] theorem pushCommand_nfields (w : Word) : (pushCommand w s).nfields = s.nfields := rfl
@[simp] theorem pushCommand_val (w : Word) : (pushCommand w s).val = s.val := rfl
@[simp] theorem pushCommand_res (w : Word) : (pushCommand w s).res = s.res := rfl
@[simp] theorem pushCommand_dt (w : Word) : (pushCommand w s).dt = s.dt := rfl
@[simp] theorem pushCommand_mem (w : Word) : (pushCommand w s).mem = s.mem := rfl
@[simp] theorem pushCommand_port (w : Word) : (pushCommand w s).port = .hostWrite cmdReg w :: s.port := rfl
@[simp] theorem pushCommand_rdata (w : Word) : (pushCommand w s).rdata = s.rdata := rfl
@[simp] theorem pushCommand_memLog (w : Word) : (pushCommand w s).memLog = s.memLog := rfl
@[simp] theorem pushCommand_draws (w : Word) : (pushCommand w s).draws = s.draws := rfl

/-! Reads that depend on few fields. -/

@[simp] theorem wrapAddr_setByte (a n : Nat) (b : Byte) : wrapAddr (setByte a b s) n = wrapAddr s n := rfl
@[simp] theorem wrapAddr_setQuad (a n : Nat) (q : Quad) : wrapAddr (setQuad a q s) n = wrapAddr s n := rfl
@[simp] theorem wrapAddr_logEvent (n : Nat) (e : MemEvent) : wrapAddr (logEvent e s) n = wrapAddr s n := rfl
@[simp] theorem wordAddr_setQuad (a j : Nat) (q : Quad) : wordAddr (setQuad a q s) j = wordAddr s j := rfl
@[simp] theorem wordAddr_logEvent (j : Nat) (e : MemEvent) : wordAddr (logEvent e s) j = wordAddr s j := rfl
@[simp] theorem byteAt_logEvent (a : Nat) (e : MemEvent) : (logEvent e s).byteAt a = s.byteAt a := rfl
@[simp] theorem quadAt_logEvent (a : Nat) (e : MemEvent) : quadAt (logEvent e s) a = quadAt s a := rfl
@[simp] theorem descriptor_logEvent (i : BitVec 8) (e : MemEvent) : (logEvent e s).descriptor i = s.descriptor i := rfl

end Sys2Proof.Machine
end

