-- ==== Sys2Proof/Laws/Memory.lean ====
section
/-! SUPPORT. The laws of listed pairs and of the buffer memory: read after write, what a write leaves alone, and that every memory
operation keeps the canonical form. -/

namespace Sys2Proof.Machine

variable {α : Type}

/-! ## Listed pairs -/

@[simp] theorem assocGet_set_same (k : Nat) (v : α) (l : List (Nat × α)) : assocGet k (assocSet k v l) = some v := by
  induction l with
  | nil => simp [assocSet, assocGet]
  | cons e rest ih =>
    obtain ⟨a, w⟩ := e
    unfold assocSet
    split
    · simp [assocGet]
    · split
      · simp [assocGet]
      · simp_all [assocGet]

theorem assocGet_set_other {k k' : Nat} (h : k' ≠ k) (v : α) (l : List (Nat × α)) :
    assocGet k' (assocSet k v l) = assocGet k' l := by
  induction l with
  | nil => simp [assocSet, assocGet, h]
  | cons e rest ih =>
    obtain ⟨a, w⟩ := e
    unfold assocSet
    split
    · simp [assocGet, h]
    · split
      · rename_i hka
        subst hka
        simp [assocGet, h]
      · simp only [assocGet, ih]

theorem mem_assocSet {k : Nat} {v : α} {l : List (Nat × α)} {e : Nat × α} (h : e ∈ assocSet k v l) :
    e = (k, v) ∨ e ∈ l := by
  induction l with
  | nil => exact .inl (by simpa [assocSet] using h)
  | cons x rest ih =>
    obtain ⟨a, w⟩ := x
    unfold assocSet at h
    split at h
    · simpa using h
    · split at h
      · rcases List.mem_cons.1 h with h | h
        · exact .inl h
        · exact .inr (List.mem_cons_of_mem _ h)
      · rcases List.mem_cons.1 h with h | h
        · exact .inr (h ▸ List.mem_cons_self ..)
        · exact (ih h).imp_right (List.mem_cons_of_mem _)

theorem rising_cons {a : Nat} {w : α} {l : List (Nat × α)} :
    rising ((a, w) :: l) = true ↔ rising l = true ∧ ∀ e ∈ l.head?, a < e.1 := by
  cases l with
  | nil => simp [rising]
  | cons x rest =>
    obtain ⟨b, u⟩ := x
    simp [rising, and_comm]

theorem head?_assocSet {k : Nat} {v : α} {l : List (Nat × α)} {e : Nat × α} (h : e ∈ (assocSet k v l).head?) :
    e.1 = k ∨ ∃ x ∈ l.head?, e.1 = x.1 := by
  cases l with
  | nil => simp [assocSet] at h; simp [← h]
  | cons x rest =>
    obtain ⟨a, w⟩ := x
    unfold assocSet at h
    split at h
    · simp at h; simp [← h]
    · split at h
      · simp at h
        exact .inl (by simp [← h])
      · simp at h
        exact .inr ⟨(a, w), by simp, by simp [← h]⟩

/-- Listing a value keeps the keys strictly rising. -/
theorem rising_assocSet (k : Nat) (v : α) {l : List (Nat × α)} (h : rising l = true) :
    rising (assocSet k v l) = true := by
  induction l with
  | nil => simp [assocSet, rising]
  | cons x rest ih =>
    obtain ⟨a, w⟩ := x
    have hr := rising_cons.1 h
    unfold assocSet
    split
    · rename_i hka
      exact rising_cons.2 ⟨h, by simpa using hka⟩
    · split
      · rename_i hka
        subst hka
        exact rising_cons.2 hr
      · rename_i h1 h2
        refine rising_cons.2 ⟨ih hr.1, fun e he => ?_⟩
        rcases head?_assocSet he with he | ⟨x, hx, he⟩
        · omega
        · exact he ▸ hr.2 x hx

/-! ## Bytes -/

@[simp] theorem read_assocSet_same (m : Memory) (a : Nat) (b : Byte) : Memory.read (assocSet a b m) a = some b := by
  simp [Memory.read]

theorem read_assocSet_other (m : Memory) {a a' : Nat} (h : a' ≠ a) (b : Byte) :
    Memory.read (assocSet a b m) a' = m.read a' := by
  simp [Memory.read, assocGet_set_other h]

/-- What storing one byte does, at every address. -/
theorem byteAt_setByte (s : State) (a a' : Nat) (b : Byte) :
    (setByte a b s).byteAt a' = if a' = wrapAddr s a then some b else s.byteAt a' := by
  split
  · rename_i h
    subst h
    exact read_assocSet_same ..
  · rename_i h
    exact read_assocSet_other _ h _

/-- What storing four bytes does, at every address: a later byte of the four wins where two of them have one address. -/
theorem byteAt_setQuad (s : State) (a a' : Nat) (q : Quad) :
    (setQuad a q s).byteAt a' =
      if a' = wrapAddr s (a + 3) then some q.b3
      else if a' = wrapAddr s (a + 2) then some q.b2
      else if a' = wrapAddr s (a + 1) then some q.b1
      else if a' = wrapAddr s a then some q.b0
      else s.byteAt a' := by
  simp [setQuad, byteAt_setByte]

/-! ## The canonical form -/

theorem wf_setByte {s : State} (a : Nat) (b : Byte) (h : s.mem.wf = true) : (setByte a b s).mem.wf = true :=
  rising_assocSet _ _ h

theorem wf_setQuad {s : State} (a : Nat) (q : Quad) (h : s.mem.wf = true) : (setQuad a q s).mem.wf = true :=
  wf_setByte _ _ (wf_setByte _ _ (wf_setByte _ _ (wf_setByte _ _ h)))

/-- The addresses listed stay inside the address space. -/
theorem lt_of_mem_setByte {s : State} {a : Nat} {b : Byte} (h : ∀ c ∈ s.mem, c.1 < 2 ^ s.params.addrW) :
    ∀ c ∈ (setByte a b s).mem, c.1 < 2 ^ s.params.addrW := by
  intro c hc
  rcases mem_assocSet hc with rfl | hc
  · exact Nat.mod_lt _ (Nat.two_pow_pos _)
  · exact h c hc

theorem lt_of_mem_setQuad {s : State} {a : Nat} {q : Quad} (h : ∀ c ∈ s.mem, c.1 < 2 ^ s.params.addrW) :
    ∀ c ∈ (setQuad a q s).mem, c.1 < 2 ^ s.params.addrW :=
  lt_of_mem_setByte (s := setByte (a + 2) q.b2 (setByte (a + 1) q.b1 (setByte a q.b0 s)))
    (lt_of_mem_setByte (s := setByte (a + 1) q.b1 (setByte a q.b0 s))
      (lt_of_mem_setByte (s := setByte a q.b0 s) (lt_of_mem_setByte h)))

/-- The memory of the reset state has the canonical form. -/
theorem wf_reset (p : Params) : (State.resetOf p).mem.wf = true := rfl

/-! ## Words of four bytes -/

/-- When four bytes are there to be read. -/
theorem quadAt_eq_some {s : State} {a : Nat} {q : Quad} :
    quadAt s a = some q ↔ s.byteAt (wrapAddr s a) = some q.b0 ∧ s.byteAt (wrapAddr s (a + 1)) = some q.b1 ∧
      s.byteAt (wrapAddr s (a + 2)) = some q.b2 ∧ s.byteAt (wrapAddr s (a + 3)) = some q.b3 := by
  unfold quadAt
  obtain ⟨c0, c1, c2, c3⟩ := q
  split
  · simp_all
  · rename_i h
    constructor
    · simp
    · rintro ⟨h0, h1, h2, h3⟩
      exact absurd h3 (h _ _ _ _ h0 h1 h2)

/-- Everything a read of the memory port can do. -/
theorem memRead_eq_some {s s' : State} {a : Nat} {q : Quad} :
    memRead s a = some (q, s') ↔ quadAt s a = some q ∧ s' = logEvent (.read a q) s := by
  unfold memRead
  split
  · rename_i c hc
    simp only [hc, Option.some.injEq, Prod.mk.injEq]
    constructor
    · rintro ⟨rfl, rfl⟩
      exact ⟨rfl, rfl⟩
    · rintro ⟨rfl, rfl⟩
      exact ⟨rfl, rfl⟩
  · rename_i hc
    simp [hc]

/-- Everything a write of the memory port can do. -/
theorem memWrite_eq_some {s s' : State} {a : Nat} {q : Quad} :
    memWrite s a q = some s' ↔ (∃ q', quadAt s a = some q') ∧ s' = logEvent (.write a q) (setQuad a q s) := by
  unfold memWrite
  split
  · rename_i c hc
    simp [hc, eq_comm]
  · rename_i hc
    simp [hc]

/-- A write of the memory port keeps the canonical form. -/
theorem wf_memWrite {s s' : State} {a : Nat} {q : Quad} (h : s.mem.wf = true) (hw : memWrite s a q = some s') :
    s'.mem.wf = true := by
  obtain ⟨-, rfl⟩ := memWrite_eq_some.1 hw
  exact wf_setQuad a q h

/-- A write of the memory port keeps the set of bytes the caller owns. -/
theorem isSome_byteAt_memWrite {s s' : State} {a : Nat} {q : Quad} (hw : memWrite s a q = some s') (a' : Nat) :
    (s'.byteAt a').isSome = (s.byteAt a').isSome := by
  obtain ⟨⟨q', hq⟩, rfl⟩ := memWrite_eq_some.1 hw
  obtain ⟨h0, h1, h2, h3⟩ := quadAt_eq_some.1 hq
  rw [byteAt_logEvent, byteAt_setQuad]
  split_ifs <;> simp_all

end Sys2Proof.Machine
end

