-- ==== Sys2Proof/Laws/ByteOrder.lean ====
section
/-! SUPPORT. The byte-order adapter inside the engine's word accesses: the two byte orders cancel, on either host. -/

namespace Sys2Proof.Machine

/-- Reading in host order and converting from big-endian gives the big-endian number. -/
@[simp] theorem beToHost32_rawOfBytes (le : Bool) (q : Quad) : beToHost32 le (rawOfBytes le q) = be32 q := by
  obtain ⟨b0, b1, b2, b3⟩ := q
  cases le with
  | false => simp [beToHost32, rawOfBytes]
  | true =>
    simp only [beToHost32, rawOfBytes, bswap32, le32, be32, if_true]
    refine BitVec.eq_of_getLsbD_eq fun i hi => ?_
    simp only [BitVec.getLsbD_append, BitVec.getLsbD_extractLsb']
    interval_cases i <;> simp

/-- Converting to big-endian and storing in host order gives the big-endian bytes. -/
@[simp] theorem bytesOfRaw_hostToBE32 (le : Bool) (w : Word) : bytesOfRaw le (hostToBE32 le w) = bytesBe32 w := by
  cases le with
  | false => simp [hostToBE32, bytesOfRaw]
  | true =>
    simp only [hostToBE32, bytesOfRaw, bswap32, bytesLe32, bytesBe32, if_true, Quad.mk.injEq]
    refine ⟨?_, ?_, ?_, ?_⟩ <;>
    · refine BitVec.eq_of_getLsbD_eq fun i hi => ?_
      simp only [BitVec.getLsbD_append, BitVec.getLsbD_extractLsb']
      interval_cases i <;> simp

/-- The big-endian number of a word's big-endian bytes is the word. -/
@[simp] theorem be32_bytesBe32 (w : Word) : be32 (bytesBe32 w) = w := by
  simp only [be32, bytesBe32]
  refine BitVec.eq_of_getLsbD_eq fun i hi => ?_
  simp only [BitVec.getLsbD_append, BitVec.getLsbD_extractLsb']
  interval_cases i <;> simp

/-- The bit of a word at offset `o`, counted from its most significant bit, is in byte `o / 8` of its four bytes. -/
theorem getLsbD_be32 (q : Quad) {o : Nat} (h : o < 32) :
    (be32 q).getLsbD (31 - o) =
      (if o / 8 = 0 then q.b0 else if o / 8 = 1 then q.b1 else if o / 8 = 2 then q.b2 else q.b3).getLsbD (7 - o % 8) := by
  obtain ⟨b0, b1, b2, b3⟩ := q
  simp only [be32, BitVec.getLsbD_append]
  interval_cases o <;> simp

/-- Everything LoadWord can do: it answers the big-endian number of the four bytes, and records the read. -/
theorem loadWord_eq_some {s s' : State} {j : Nat} {w : Word} :
    loadWord s j = some (w, s') ↔
      ∃ q, quadAt s (wordAddr s j) = some q ∧ w = be32 q ∧ s' = logEvent (.read (wordAddr s j) q) s := by
  unfold loadWord memRead
  cases hq : quadAt s (wordAddr s j) with
  | none => simp
  | some q => simp [eq_comm]

theorem loadWord_eq_none {s : State} {j : Nat} : loadWord s j = none ↔ quadAt s (wordAddr s j) = none := by
  unfold loadWord memRead
  cases hq : quadAt s (wordAddr s j) <;> simp

/-- Everything StoreWord can do: it stores the big-endian bytes, and records the write. -/
theorem storeWord_eq_some {s s' : State} {j : Nat} {w : Word} :
    storeWord s j w = some s' ↔ (∃ q, quadAt s (wordAddr s j) = some q) ∧
      s' = logEvent (.write (wordAddr s j) (bytesBe32 w)) (setQuad (wordAddr s j) (bytesBe32 w) s) := by
  simp [storeWord, memWrite_eq_some]

end Sys2Proof.Machine
end

