-- ==== Sys2Proof/Laws/Engine.lean ====
section
/-! SUPPORT. What the engine's validation and loops can do, each said once: the lemmas that later proofs cite. -/

namespace Sys2Proof.Machine

/-! ## Validation (R102) -/

theorem valid_iff {d : Descriptor} : d.valid = true ↔ d.bitWidth.toNat ≤ 64 ∧ d.bitOffset.toNat ≤ 31 := by
  simp [Descriptor.valid]

theorem lengthFails_iff {d : Descriptor} {s : State} :
    lengthFails d s = true ↔ 0 < d.nwords ∧ s.bufLen.toNat < 4 * (d.wordIndex.toNat + d.nwords) := by
  simp only [lengthFails, Bool.and_eq_true, decide_eq_true_eq]
  exact Iff.rfl

/-- When validation passes, and with which descriptor. -/
theorem validate_eq_passed {f : BitVec 8} {s : State} {d : Descriptor} :
    validate f s = .passed d ↔ Accepts s f d := by
  constructor
  · intro h
    unfold validate at h
    split at h
    · cases h
    rename_i hb
    split at h
    · cases h
    rename_i hn
    split at h
    · cases h
    rename_i e he
    unfold validateDescriptor at h
    split at h
    · cases h
    rename_i hv
    split at h
    · cases h
    rename_i hl
    cases h
    have hv' := valid_iff.1 (by simpa using hv)
    refine ⟨by simpa [State.bufv] using hb, by omega, he, hv'.1, hv'.2, fun hc hp => ?_⟩
    have : ¬ lengthFails d s = true := fun hf => hl (by simp [State.lenchk, hf]; simpa using hc)
    rw [lengthFails_iff] at this
    omega
  · rintro ⟨hb, hn, hd, hw, ho, hl⟩
    have hlen : (s.lenchk && lengthFails d s) = false := by
      rw [Bool.and_eq_false_iff]
      by_cases hc : s.bufCtrl.getLsbD 1 = true
      · right
        rw [Bool.eq_false_iff, ne_eq, lengthFails_iff]
        have := hl hc
        omega
      · left
        simpa [State.lenchk] using hc
    unfold validate
    rw [if_neg (by simpa [State.bufv] using hb), if_neg (by omega), hd]
    show validateDescriptor d s = _
    unfold validateDescriptor
    rw [if_neg (by simpa using valid_iff.2 ⟨hw, ho⟩), if_neg (by simp [hlen])]

/-- When validation finds the selected entry unwritten. -/
theorem validate_eq_unwritten {f : BitVec 8} {s : State} :
    validate f s = .unwritten ↔ s.bufv = true ∧ f.toNat < s.nfields.toNat ∧ s.descriptor f = none := by
  unfold validate
  cases hb : s.bufv with
  | false => simp
  | true =>
    by_cases hn : s.nfields.toNat ≤ f.toNat
    · simp [hn]
    · cases hd : s.descriptor f with
      | none => simp [hn]; omega
      | some e =>
        simp only [hn, validateDescriptor]
        split_ifs <;> simp

/-- The failures of validation never report an illegal command word: that is the decoder's. -/
theorem validate_failed_ne_illegalCmd {f : BitVec 8} {s : State} : validate f s ≠ .failed .illegalCmd := by
  unfold validate validateDescriptor
  split_ifs <;> (try simp)
  split
  · simp
  · split_ifs <;> simp

/-- Validation reads the configuration alone. -/
theorem validate_congr {f : BitVec 8} {s s' : State} (h1 : s'.bufCtrl = s.bufCtrl) (h2 : s'.nfields = s.nfields)
    (h3 : s'.dt = s.dt) (h4 : s'.bufLen = s.bufLen) : validate f s' = validate f s := by
  obtain ⟨⟩ := s
  obtain ⟨⟩ := s'
  simp only at h1 h2 h3 h4
  subst h1 h2 h3 h4
  rfl

/-! ## The commands -/

/-- Everything GETF can do when it answers a next state. -/
theorem execGetf_eq_next {f : BitVec 8} {s t : State} :
    execGetf f s = .next t ↔
      (∃ c, validate f s = .failed c ∧ t = raiseInvalidArgument c s) ∨
      (∃ d r s', validate f s = .passed d ∧ extractField d s = some (r, s') ∧ t = completeWithResult r s') := by
  unfold execGetf
  cases hv : validate f s with
  | failed c => simp [eq_comm]
  | unwritten => simp
  | passed d =>
    cases he : extractField d s with
    | none => simp [he]
    | some p => obtain ⟨r, s'⟩ := p; simp [he, eq_comm]

/-- Everything SETF can do when it answers a next state. -/
theorem execSetf_eq_next {f : BitVec 8} {s t : State} :
    execSetf f s = .next t ↔
      (∃ c, validate f s = .failed c ∧ t = raiseInvalidArgument c s) ∨
      (∃ d s', validate f s = .passed d ∧ injectField d s = some s' ∧ t = completeWithoutResult s') := by
  unfold execSetf
  cases hv : validate f s with
  | failed c => simp [eq_comm]
  | unwritten => simp
  | passed d =>
    cases he : injectField d s with
    | none => simp [he]
    | some p => simp [he, eq_comm]

/-! ## The loops -/

/-- What one round of SETF's loop leaves: the word read, then written back with the chunk's bits replaced. -/
def injectOne (v : Value) (c : Chunk) (q : Quad) (s : State) : State :=
  logEvent (.write (wordAddr s c.word) (bytesBe32 (mergeChunk c v (be32 q))))
    (setQuad (wordAddr s c.word) (bytesBe32 (mergeChunk c v (be32 q))) (logEvent (.read (wordAddr s c.word) q) s))

@[simp] theorem injectOne_params (v : Value) (c : Chunk) (q : Quad) (s : State) :
    (injectOne v c q s).params = s.params := by simp [injectOne]
@[simp] theorem injectOne_status (v : Value) (c : Chunk) (q : Quad) (s : State) :
    (injectOne v c q s).status = s.status := by simp [injectOne]
@[simp] theorem injectOne_bufBase (v : Value) (c : Chunk) (q : Quad) (s : State) :
    (injectOne v c q s).bufBase = s.bufBase := by simp [injectOne]
@[simp] theorem injectOne_bufCtrl (v : Value) (c : Chunk) (q : Quad) (s : State) :
    (injectOne v c q s).bufCtrl = s.bufCtrl := by simp [injectOne]
@[simp] theorem injectOne_bufLen (v : Value) (c : Chunk) (q : Quad) (s : State) :
    (injectOne v c q s).bufLen = s.bufLen := by simp [injectOne]
@[simp] theorem injectOne_nfields (v : Value) (c : Chunk) (q : Quad) (s : State) :
    (injectOne v c q s).nfields = s.nfields := by simp [injectOne]
@[simp] theorem injectOne_val (v : Value) (c : Chunk) (q : Quad) (s : State) :
    (injectOne v c q s).val = s.val := by simp [injectOne]
@[simp] theorem injectOne_res (v : Value) (c : Chunk) (q : Quad) (s : State) :
    (injectOne v c q s).res = s.res := by simp [injectOne]
@[simp] theorem injectOne_dt (v : Value) (c : Chunk) (q : Quad) (s : State) :
    (injectOne v c q s).dt = s.dt := by simp [injectOne]
@[simp] theorem injectOne_port (v : Value) (c : Chunk) (q : Quad) (s : State) :
    (injectOne v c q s).port = s.port := by simp [injectOne]
@[simp] theorem injectOne_rdata (v : Value) (c : Chunk) (q : Quad) (s : State) :
    (injectOne v c q s).rdata = s.rdata := by simp [injectOne]
@[simp] theorem injectOne_draws (v : Value) (c : Chunk) (q : Quad) (s : State) :
    (injectOne v c q s).draws = s.draws := by simp [injectOne]
@[simp] theorem injectOne_mem (v : Value) (c : Chunk) (q : Quad) (s : State) :
    (injectOne v c q s).mem = (setQuad (wordAddr s c.word) (bytesBe32 (mergeChunk c v (be32 q))) s).mem := by
  simp [injectOne, setQuad, wrapAddr]
@[simp] theorem injectOne_memLog (v : Value) (c : Chunk) (q : Quad) (s : State) :
    (injectOne v c q s).memLog = s.memLog ++
      [.read (wordAddr s c.word) q, .write (wordAddr s c.word) (bytesBe32 (mergeChunk c v (be32 q)))] := by
  simp [injectOne]
@[simp] theorem wrapAddr_injectOne (v : Value) (c : Chunk) (q : Quad) (s : State) (a : Nat) :
    wrapAddr (injectOne v c q s) a = wrapAddr s a := by simp [wrapAddr]
@[simp] theorem wordAddr_injectOne (v : Value) (c : Chunk) (q : Quad) (s : State) (j : Nat) :
    wordAddr (injectOne v c q s) j = wordAddr s j := by simp [wordAddr, wrapAddr]
theorem byteAt_injectOne (v : Value) (c : Chunk) (q : Quad) (s : State) (a : Nat) :
    (injectOne v c q s).byteAt a =
      (setQuad (wordAddr s c.word) (bytesBe32 (mergeChunk c v (be32 q))) s).byteAt a := by
  simp only [State.byteAt, injectOne_mem]

@[simp] theorem extractChunks_nil (r : Value) (s : State) : extractChunks [] r s = some (r, s) := rfl

@[simp] theorem injectChunks_nil (v : Value) (s : State) : injectChunks v [] s = some s := rfl

/-- One round of GETF's loop. -/
theorem extractChunks_cons_eq_some {c : Chunk} {rest : List Chunk} {r r' : Value} {s s' : State} :
    extractChunks (c :: rest) r s = some (r', s') ↔
      ∃ q, quadAt s (wordAddr s c.word) = some q ∧
        extractChunks rest (r ||| ((chunkOfWord c (be32 q)).setWidth 64 <<< c.sig))
          (logEvent (.read (wordAddr s c.word) q) s) = some (r', s') := by
  rw [extractChunks]
  cases hl : loadWord s c.word with
  | none =>
    rw [loadWord_eq_none] at hl
    simp [hl]
  | some p =>
    obtain ⟨w, s1⟩ := p
    obtain ⟨q, hq, rfl, rfl⟩ := loadWord_eq_some.1 hl
    simp [hq]

/-- One round of SETF's loop. -/
theorem injectChunks_cons_eq_some {v : Value} {c : Chunk} {rest : List Chunk} {s s' : State} :
    injectChunks v (c :: rest) s = some s' ↔
      ∃ q, quadAt s (wordAddr s c.word) = some q ∧ injectChunks v rest (injectOne v c q s) = some s' := by
  rw [injectChunks]
  cases hl : loadWord s c.word with
  | none =>
    rw [loadWord_eq_none] at hl
    simp [hl]
  | some p =>
    obtain ⟨w, s1⟩ := p
    obtain ⟨q, hq, rfl, rfl⟩ := loadWord_eq_some.1 hl
    have hst : storeWord (logEvent (.read (wordAddr s c.word) q) s) c.word (mergeChunk c v (be32 q)) =
        some (injectOne v c q s) := storeWord_eq_some.2 ⟨⟨q, hq⟩, rfl⟩
    simp [hst, hq]

/-- The loop of GETF changes the record of the memory port alone. -/
theorem extractChunks_frame {cs : List Chunk} {r r' : Value} {s s' : State}
    (h : extractChunks cs r s = some (r', s')) : s' = { s with memLog := s'.memLog } := by
  induction cs generalizing r s with
  | nil => simp at h; simp [← h.2]
  | cons c rest ih =>
    obtain ⟨q, -, h⟩ := extractChunks_cons_eq_some.1 h
    have := ih h
    exact this

/-- Two states with the same registers and parameters are the same but for the memory and its record. -/
theorem State.eq_of_registers {s s' : State} (h : s'.params = s.params ∧ s'.status = s.status ∧ s'.bufBase = s.bufBase ∧
    s'.bufCtrl = s.bufCtrl ∧ s'.bufLen = s.bufLen ∧ s'.nfields = s.nfields ∧ s'.val = s.val ∧ s'.res = s.res ∧
    s'.dt = s.dt ∧ s'.port = s.port ∧ s'.rdata = s.rdata ∧ s'.draws = s.draws) :
    s' = { s with mem := s'.mem, memLog := s'.memLog } := by
  obtain ⟨⟩ := s
  obtain ⟨⟩ := s'
  simp only at h
  obtain ⟨rfl, rfl, rfl, rfl, rfl, rfl, rfl, rfl, rfl, rfl, rfl, rfl⟩ := h
  rfl

/-- The loop of SETF changes the memory and the record of the memory port alone: each other field. -/
theorem injectChunks_registers {v : Value} {cs : List Chunk} {s s' : State} (h : injectChunks v cs s = some s') :
    s'.params = s.params ∧ s'.status = s.status ∧ s'.bufBase = s.bufBase ∧ s'.bufCtrl = s.bufCtrl ∧
      s'.bufLen = s.bufLen ∧ s'.nfields = s.nfields ∧ s'.val = s.val ∧ s'.res = s.res ∧ s'.dt = s.dt ∧
      s'.port = s.port ∧ s'.rdata = s.rdata ∧ s'.draws = s.draws := by
  induction cs generalizing s with
  | nil => simp at h; simp [← h]
  | cons c rest ih =>
    obtain ⟨q, -, h⟩ := injectChunks_cons_eq_some.1 h
    simpa using ih h

/-- The loop of SETF changes the memory and the record of the memory port alone. -/
theorem injectChunks_frame {v : Value} {cs : List Chunk} {s s' : State}
    (h : injectChunks v cs s = some s') : s' = { s with mem := s'.mem, memLog := s'.memLog } :=
  State.eq_of_registers (injectChunks_registers h)

/-- The loop of SETF keeps the memory's canonical form. -/
theorem injectChunks_wf {v : Value} {cs : List Chunk} {s s' : State} (hm : s.mem.wf = true)
    (h : injectChunks v cs s = some s') : s'.mem.wf = true := by
  induction cs generalizing s with
  | nil => simp at h; simpa [← h] using hm
  | cons c rest ih =>
    obtain ⟨q, -, h⟩ := injectChunks_cons_eq_some.1 h
    refine ih ?_ h
    rw [injectOne_mem]
    exact wf_setQuad _ _ hm

/-- The loop of SETF keeps every listed address inside the address space. -/
theorem injectChunks_lt {v : Value} {cs : List Chunk} {s s' : State} (hm : ∀ c ∈ s.mem, c.1 < 2 ^ s.params.addrW)
    (h : injectChunks v cs s = some s') : ∀ c ∈ s'.mem, c.1 < 2 ^ s.params.addrW := by
  induction cs generalizing s with
  | nil => simp at h; simpa [← h] using hm
  | cons c rest ih =>
    obtain ⟨q, -, h⟩ := injectChunks_cons_eq_some.1 h
    refine ih (s := injectOne v c q s) ?_ h
    rw [injectOne_mem, injectOne_params]
    exact lt_of_mem_setQuad hm

/-- One round of SETF's loop keeps the set of bytes the caller owns. -/
theorem isSome_byteAt_injectOne {v : Value} {c : Chunk} {q : Quad} {s : State}
    (hq : quadAt s (wordAddr s c.word) = some q) (a : Nat) :
    ((injectOne v c q s).byteAt a).isSome = (s.byteAt a).isSome :=
  isSome_byteAt_memWrite (s := s) (q := bytesBe32 (mergeChunk c v (be32 q))) (memWrite_eq_some.2 ⟨⟨q, hq⟩, rfl⟩) a

/-- The loop of SETF keeps the set of bytes the caller owns. -/
theorem injectChunks_isSome {v : Value} {cs : List Chunk} {s s' : State}
    (h : injectChunks v cs s = some s') (a : Nat) : (s'.byteAt a).isSome = (s.byteAt a).isSome := by
  induction cs generalizing s with
  | nil => simp at h; simp [← h]
  | cons c rest ih =>
    obtain ⟨q, hq, h⟩ := injectChunks_cons_eq_some.1 h
    rw [ih h, isSome_byteAt_injectOne hq]

end Sys2Proof.Machine
end

