-- ==== Sys2Proof/Laws/Bits.lean ====
section
/-! SUPPORT. The bits a chunk moves, and the buffer bits a word holds (R101, R105, R110, R111). -/

namespace Sys2Proof.Machine

/-- `ones(n)`, bit by bit. -/
theorem getLsbD_ones32 {n m : Nat} (h : n ≤ 32) : (ones32 n).getLsbD m = decide (m < n) := by
  unfold ones32
  rw [BitVec.getLsbD_ofNat, Nat.testBit_two_pow_sub_one]
  by_cases hm : m < n
  · simp [hm]; omega
  · simp [hm]

/-- The mask of a chunk, bit by bit. -/
theorem getLsbD_mask {c : Chunk} (h : c.shift + c.width ≤ 32) {m : Nat} :
    c.mask.getLsbD m = (decide (c.shift ≤ m) && decide (m < c.shift + c.width)) := by
  unfold Chunk.mask
  rw [BitVec.getLsbD_shiftLeft, getLsbD_ones32 (by omega)]
  by_cases h1 : m < c.shift
  · have : ¬ c.shift ≤ m := by omega
    simp [h1, this]
  · have h3 : c.shift ≤ m := by omega
    by_cases h2 : m < c.shift + c.width
    · have h4 : m < 32 := by omega
      have h5 : m - c.shift < c.width := by omega
      simp [h1, h2, h3, h4, h5]
    · have h5 : ¬ m - c.shift < c.width := by omega
      simp [h2, h5]

/-- A chunk taken out of its word, bit by bit. -/
theorem getLsbD_chunkOfWord {c : Chunk} (h : c.shift + c.width ≤ 32) (w : Word) (m : Nat) :
    (chunkOfWord c w).getLsbD m = (decide (m < c.width) && w.getLsbD (c.shift + m)) := by
  unfold chunkOfWord
  rw [BitVec.getLsbD_ushiftRight, BitVec.getLsbD_and, getLsbD_mask h]
  by_cases h2 : m < c.width
  · simp [h2]
  · simp [h2]

/-- A chunk in its place in the result, bit by bit. -/
theorem getLsbD_chunk_placed {c : Chunk} (h : c.shift + c.width ≤ 32) (w : Word) (m : Nat) :
    ((chunkOfWord c w).setWidth 64 <<< c.sig).getLsbD m =
      (decide (m < 64) && decide (c.sig ≤ m) && decide (m < c.sig + c.width) && w.getLsbD (c.shift + (m - c.sig))) := by
  rw [BitVec.getLsbD_shiftLeft, BitVec.getLsbD_setWidth, getLsbD_chunkOfWord h]
  by_cases h0 : m < 64 <;> by_cases h1 : m < c.sig
  · simp [h0, h1]
  · have : decide (m - c.sig < c.width) = decide (m < c.sig + c.width) := decide_eq_decide.2 (by omega)
    have h64 : m - c.sig < 64 := by omega
    have hle : c.sig ≤ m := by omega
    simp only [h0, h1, this, h64, hle, decide_true, decide_false, Bool.not_false, Bool.true_and]
  · simp [h0]
  · simp [h0]

/-- A chunk's bits of the field value, bit by bit. -/
theorem getLsbD_chunkOfValue {c : Chunk} (h : c.width ≤ 32) (v : Value) (m : Nat) :
    (chunkOfValue c v).getLsbD m = (decide (m < c.width) && v.getLsbD (c.sig + m)) := by
  unfold chunkOfValue
  rw [BitVec.getLsbD_ofNat, Nat.testBit_mod_two_pow, Nat.testBit_shiftRight]
  by_cases hm : m < c.width
  · have : m < 32 := by omega
    simp [hm, this, BitVec.getLsbD]
  · simp [hm]

/-- The word SETF stores: the chunk's bits from the value, the others as they were. -/
theorem getLsbD_mergeChunk {c : Chunk} (h : c.shift + c.width ≤ 32) (v : Value) (w : Word) {m : Nat} (hm : m < 32) :
    (mergeChunk c v w).getLsbD m =
      if c.shift ≤ m ∧ m < c.shift + c.width then v.getLsbD (c.sig + (m - c.shift)) else w.getLsbD m := by
  unfold mergeChunk
  rw [BitVec.getLsbD_or, BitVec.getLsbD_and, BitVec.getLsbD_not, getLsbD_mask h, BitVec.getLsbD_shiftLeft,
    getLsbD_chunkOfValue (by omega)]
  by_cases h1 : m < c.shift
  · have : ¬ c.shift ≤ m := by omega
    simp [h1, this, hm]
  · by_cases h2 : m < c.shift + c.width
    · have h3 : c.shift ≤ m := by omega
      have h4 : m - c.shift < c.width := by omega
      simp [h1, h2, h3, h4, hm]
    · have h3 : ¬ m - c.shift < c.width := by omega
      simp [h1, h2, h3, hm]

/-- The field value, bit by bit: bits at and above the width are 0. -/
theorem getLsbD_fieldValue {bw : Nat} (v : Value) (m : Nat) :
    (fieldValue bw v).getLsbD m = (decide (m < bw) && v.getLsbD m) := by
  unfold fieldValue
  rw [BitVec.getLsbD_ofNat, Nat.testBit_mod_two_pow]
  by_cases h64 : m < 64
  · simp [h64, BitVec.getLsbD]
  · simp [h64, BitVec.getLsbD_of_ge v m (by omega)]

/-- The address of byte `x` of the buffer, reached through its word. -/
theorem wrapAddr_wordAddr (s : State) (j b : Nat) :
    wrapAddr s (wordAddr s j + b) = wrapAddr s (s.bufBase.toNat + (4 * j + b)) := by
  simp only [wordAddr, wrapAddr, Nat.mod_add_mod]
  congr 1
  omega

/-- Two bytes of the address space, counted from BUF_BASE, have one address only if they are the same byte. -/
theorem wrapAddr_inj {s : State} {x y : Nat} (hx : x < 2 ^ s.params.addrW) (hy : y < 2 ^ s.params.addrW)
    (h : wrapAddr s (s.bufBase.toNat + x) = wrapAddr s (s.bufBase.toNat + y)) : x = y := by
  have h' : x ≡ y [MOD 2 ^ s.params.addrW] := Nat.ModEq.add_left_cancel' _ h
  rwa [Nat.ModEq, Nat.mod_eq_of_lt hx, Nat.mod_eq_of_lt hy] at h'

/-- The reach of the engine is less than the smallest address space. -/
theorem reach_lt {p : Params} (h : p.wf = true) : 1032 < 2 ^ p.addrW := by
  simp only [Params.wf, Bool.and_eq_true, decide_eq_true_eq] at h
  calc 1032 < 2 ^ 12 := by norm_num
    _ ≤ 2 ^ p.addrW := Nat.pow_le_pow_right (by norm_num) h.1

/-- The buffer bits of a word are the word's bits, most significant first. -/
theorem bufferBit_of_quadAt {s : State} {j : Nat} {q : Quad} (h : quadAt s (wordAddr s j) = some q) {o : Nat} (ho : o < 32) :
    bufferBit s (32 * j + o) = some ((be32 q).getLsbD (31 - o)) := by
  obtain ⟨h0, h1, h2, h3⟩ := quadAt_eq_some.1 h
  have e0 := wrapAddr_wordAddr s j 0
  simp only [Nat.add_zero] at e0
  rw [wrapAddr_wordAddr] at h1 h2 h3
  rw [e0] at h0
  have hm : (32 * j + o) % 8 = o % 8 := by omega
  rw [getLsbD_be32 q ho]
  unfold bufferBit
  rw [hm]
  rcases (by omega : o / 8 = 0 ∨ o / 8 = 1 ∨ o / 8 = 2 ∨ o / 8 = 3) with hq | hq | hq | hq
  · have : (32 * j + o) / 8 = 4 * j := by omega
    simp [this, h0, hq]
  · have : (32 * j + o) / 8 = 4 * j + 1 := by omega
    simp [this, h1, hq]
  · have : (32 * j + o) / 8 = 4 * j + 2 := by omega
    simp [this, h2, hq]
  · have : (32 * j + o) / 8 = 4 * j + 3 := by omega
    simp [this, h3, hq]

/-- The bytes of a word stored are the word's bytes, where the address space is large enough to tell four addresses apart. -/
theorem quadAt_setQuad {s : State} {j : Nat} (q : Quad) (hp : s.params.wf = true) :
    quadAt (setQuad (wordAddr s j) q s) (wordAddr s j) = some q := by
  have hr := reach_lt hp
  have hne : ∀ x y, x < 4 → y < 4 → x ≠ y →
      wrapAddr s (wordAddr s j + x) ≠ wrapAddr s (wordAddr s j + y) := by
    intro x y hx hy hxy he
    have h' : x ≡ y [MOD 2 ^ s.params.addrW] := Nat.ModEq.add_left_cancel' _ he
    rw [Nat.ModEq, Nat.mod_eq_of_lt (by omega), Nat.mod_eq_of_lt (by omega)] at h'
    exact hxy h'
  have h01 := hne 0 1; have h02 := hne 0 2; have h03 := hne 0 3
  have h12 := hne 1 2; have h13 := hne 1 3; have h23 := hne 2 3
  simp only [Nat.add_zero] at h01 h02 h03
  rw [quadAt_eq_some]
  simp only [byteAt_setQuad, wrapAddr_setQuad]
  refine ⟨?_, ?_, ?_, ?_⟩
  · rw [if_neg (h03 (by omega) (by omega) (by omega)), if_neg (h02 (by omega) (by omega) (by omega)),
      if_neg (h01 (by omega) (by omega) (by omega)), if_pos trivial]
  · rw [if_neg (h13 (by omega) (by omega) (by omega)), if_neg (h12 (by omega) (by omega) (by omega)), if_pos trivial]
  · rw [if_neg (h23 (by omega) (by omega) (by omega)), if_pos trivial]
  · rw [if_pos trivial]

end Sys2Proof.Machine
end

