-- ==== Sys2Proof/Laws/PerInstr.lean ====
section
/-! SUPPORT. Per instruction: its word matches its row of the opcode map (30_encoding.md R62). -/

namespace Sys2Proof.Laws

/-- The mask of the instruction's row in R62. -/
def rowMask : Instr → Word
  | .getf _ => 0xFFFF00FF
  | .setf _ => 0xFFFF00FF
  | .htobe16 => 0xFFFFFFFF
  | .htobe32 => 0xFFFFFFFF
  | .htobe64 => 0xFFFFFFFF
  | .betoh16 => 0xFFFFFFFF
  | .betoh32 => 0xFFFFFFFF
  | .betoh64 => 0xFFFFFFFF

/-- The match word of the instruction's row in R62. -/
def rowMatch : Instr → Word
  | .getf _ => 0x00000001
  | .setf _ => 0x00000002
  | .htobe16 => 0x00000008
  | .htobe32 => 0x00000009
  | .htobe64 => 0x0000000A
  | .betoh16 => 0x0000000C
  | .betoh32 => 0x0000000D
  | .betoh64 => 0x0000000E

/-- The word of an instruction encodes its row, and the index stands in bits 15:8 (R60, R62, R63). -/
def TableRow.Statement (i : Instr) : Prop :=
  encode i &&& rowMask i = rowMatch i ∧ (encode i).extractLsb' 8 8 = fidxOf i

theorem TableRow.getf (f : BitVec 8) : TableRow.Statement (.getf f) := by
  revert f; unfold TableRow.Statement; decide
theorem TableRow.setf (f : BitVec 8) : TableRow.Statement (.setf f) := by
  revert f; unfold TableRow.Statement; decide
theorem TableRow.htobe16 : TableRow.Statement .htobe16 := by unfold TableRow.Statement; decide
theorem TableRow.htobe32 : TableRow.Statement .htobe32 := by unfold TableRow.Statement; decide
theorem TableRow.htobe64 : TableRow.Statement .htobe64 := by unfold TableRow.Statement; decide
theorem TableRow.betoh16 : TableRow.Statement .betoh16 := by unfold TableRow.Statement; decide
theorem TableRow.betoh32 : TableRow.Statement .betoh32 := by unfold TableRow.Statement; decide
theorem TableRow.betoh64 : TableRow.Statement .betoh64 := by unfold TableRow.Statement; decide

end Sys2Proof.Laws
end

