-- ==== Sys2Proof/Tests/Slice0.lean ====
section
/-! SUPPORT. Tests of the model, expected values from spec/ by hand, and for every statement with hypotheses a concrete
state and operands that meet them. -/

namespace Sys2Proof.Tests

open Sys2Proof Sys2Proof.Machine

/-! ## Helpers -/

/-- The next state of an outcome, if it is one. -/
def nextOf (o : Host.Outcome State Fault Refusal) : Option State :=
  match o with
  | .next t => some t
  | .fault _ => none
  | .refused _ => none

theorem exists_next {o : Host.Outcome State Fault Refusal} (h : (nextOf o).isSome = true) : ∃ t, o = .next t := by
  cases o with
  | next t => exact ⟨t, rfl⟩
  | fault x => simp [nextOf] at h
  | refused x => simp [nextOf] at h

/-- The bytes `12 34 56 78 9A BC DE F0 11 22 33 44` from address 0 on. -/
def bytes12 : Memory :=
  [(0, 0x12), (1, 0x34), (2, 0x56), (3, 0x78), (4, 0x9A), (5, 0xBC), (6, 0xDE), (7, 0xF0), (8, 0x11), (9, 0x22), (10, 0x33),
    (11, 0x44)]

/-- A small little-endian machine with `ADDR_W = 12`, the buffer `bytes12` at address 0, and one descriptor. -/
def bench (wi bo bw : BitVec 8) (v : Value) : State :=
  { State.resetOf ⟨true, 12⟩ with
    bufCtrl := 1, nfields := 1, val := v, mem := bytes12, dt := [(0, { wordIndex := wi, bitOffset := bo, bitWidth := bw })] }

/-- The state with one transaction pending. -/
def pending (t : Transaction) (s : State) : State := { s with port := [t] }

/-- The values of RES and STATUS after a command, if it takes a step. -/
def outcome (o : Host.Outcome State Fault Refusal) : Option (Value × BitVec 9) := (nextOf o).map fun t => (t.res, t.status)

/-- The bytes of buffer memory after a command, if it takes a step. -/
def bytesAfter (o : Host.Outcome State Fault Refusal) : Option (List Byte) := (nextOf o).map fun t => t.mem.map Prod.snd

/-! ## Well-formedness: an ill-formed term for each check -/

theorem test_wf_refuses_addrW_11 : Params.wf ⟨true, 11⟩ = false := by decide
theorem test_wf_refuses_addrW_33 : Params.wf ⟨false, 33⟩ = false := by decide
theorem test_wf_accepts_the_ends : Params.wf ⟨true, 12⟩ = true ∧ Params.wf ⟨false, 32⟩ = true := by decide
theorem test_memory_wf_refuses_repeats : Memory.wf [(3, 0), (3, 1)] = false := by decide
theorem test_memory_wf_refuses_disorder : Memory.wf [(4, 0), (3, 1)] = false := by decide

/-! ## Decoding: every constructor's word, written out from R60 and R62; the illegal words of R64 -/

theorem test_decode_getf : decode 0b0000000000000000_00000001_0000_0001 = .ok (.getf 1) := by decide
theorem test_decode_setf : decode 0b0000000000000000_11111111_0000_0010 = .ok (.setf 255) := by decide
theorem test_decode_htobe16 : decode 0b0000000000000000_00000000_0000_1000 = .ok .htobe16 := by decide
theorem test_decode_htobe32 : decode 0b0000000000000000_00000000_0000_1001 = .ok .htobe32 := by decide
theorem test_decode_htobe64 : decode 0b0000000000000000_00000000_0000_1010 = .ok .htobe64 := by decide
theorem test_decode_betoh16 : decode 0b0000000000000000_00000000_0000_1100 = .ok .betoh16 := by decide
theorem test_decode_betoh32 : decode 0b0000000000000000_00000000_0000_1101 = .ok .betoh32 := by decide
theorem test_decode_betoh64 : decode 0b0000000000000000_00000000_0000_1110 = .ok .betoh64 := by decide
theorem test_decode_illegal_op :
    [0x0, 0x3, 0x4, 0x5, 0x6, 0x7, 0xB, 0xF].map decode = List.replicate 8 (.error .reservedOp) := by decide
theorem test_decode_illegal_bits :
    decode 0x00000011 = .error .nonzeroZ0 ∧ decode 0x00010001 = .error .nonzeroZ1 ∧
      decode 0x80000008 = .error .nonzeroZ1 ∧ decode 0x00000108 = .error .nonzeroFidx := by decide
theorem test_decodeTableWord : decodeTableWord 32 0x0000FF01 = some (.getf 255) ∧ decodeTableWord 32 0x0B = none := by decide +kernel

/-! ## One step of each instruction -/

/-- The example of R110. -/
theorem test_getf_spans_two_words : outcome (exec (.getf 0) (bench 0 24 16 0)) = some (0x789A, 0x100) := by decide
/-- R104 (31 + 32 + 1 bits) with R115. -/
theorem test_getf_spans_three_words :
    outcome (exec (.getf 0) (bench 0 1 64 0)) = some (0x2468ACF13579BDE0, 0x100) := by decide
/-- The example of R111 on the bytes of `bytes12`: bits outside the field keep their values. -/
theorem test_setf_spans_two_words :
    bytesAfter (exec (.setf 0) (bench 0 24 16 0xABCD)) =
      some [0x12, 0x34, 0x56, 0xAB, 0xCD, 0xBC, 0xDE, 0xF0, 0x11, 0x22, 0x33, 0x44] := by decide
/-- R112: the value is cut to the width. -/
theorem test_setf_truncates :
    bytesAfter (exec (.setf 0) (bench 1 0 7 0x81)) =
      some [0x12, 0x34, 0x56, 0x78, 0x02, 0xBC, 0xDE, 0xF0, 0x11, 0x22, 0x33, 0x44] := by decide
/-- The example of R83. -/
theorem test_htobe16 : outcome (exec .htobe16 (bench 0 0 0 0xFFFFFFFFFFFF1234)) = some (0x3412, 0x100) := by decide
/-- The example of R84. -/
theorem test_htobe32 : outcome (exec .htobe32 (bench 0 0 0 0x11223344)) = some (0x44332211, 0x100) := by decide
/-- The example of R85. -/
theorem test_htobe64 :
    outcome (exec .htobe64 (bench 0 0 0 0x0102030405060708)) = some (0x0807060504030201, 0x100) := by decide
/-- The examples of R86. -/
theorem test_betoh16 : outcome (exec .betoh16 (bench 0 0 0 0x3412)) = some (0x1234, 0x100) := by decide
theorem test_betoh16_big_endian :
    outcome (exec .betoh16 { bench 0 0 0 0x3412 with params := ⟨false, 12⟩ }) = some (0x3412, 0x100) := by decide
/-- The example of R87. -/
theorem test_betoh32 : outcome (exec .betoh32 (bench 0 0 0 0x44332211)) = some (0x11223344, 0x100) := by decide
/-- The example of R88. -/
theorem test_betoh64 :
    outcome (exec .betoh64 (bench 0 0 0 0x0807060504030201)) = some (0x0102030405060708, 0x100) := by decide
/-- R35: a GETF straight after reset fails with BUF_ABSENT. -/
theorem test_first_step_after_reset :
    (nextOf (step (State.reset.withFetchWord 32 0x00000001))).map State.status = some 0x011 := by decide
/-- R64, R148: the all-zero word is illegal. -/
theorem test_zero_word_is_illegal :
    (nextOf (step (State.reset.withFetchWord 32 0))).map State.status = some 0x051 := by decide

/-! ## The hypotheses of the statements can be met -/

theorem witness_ResetGivesTheResetValues :
    (∃ (s : State) (rest : List Transaction), s.port = .reset :: rest) ∧ ∃ u : State, u.bufCtrl.getLsbD 0 = false :=
  ⟨⟨pending .reset (bench 0 24 16 0), [], rfl⟩, State.reset, by decide⟩

/-- A reset after `n` accesses of a two-word SETF: before the first, after the first read, after the first pair, and after all. -/
theorem witness_ResetDuringSetfKeepsThePrefix :
    ∀ n ∈ [0, 1, 2, 3, 4, 9], ∃ (s u : State) (f : BitVec 8) (d : Descriptor) (rest : List Transaction),
      s.params.wf = true ∧ Accepts s f d ∧ OwnsField s d ∧ exec (.setf f) s = .next u ∧
        s.port = .resetDuring (encode (.setf f)) n :: rest := by
  intro n hn
  have h : ∀ n ∈ [0, 1, 2, 3, 4, 9], let s := pending (.resetDuring (encode (.setf 0)) n) (bench 0 24 16 0xABCD)
      s.params.wf = true ∧ Accepts s 0 ⟨0, 24, 16⟩ ∧ OwnsField s ⟨0, 24, 16⟩ ∧ (nextOf (exec (.setf 0) s)).isSome = true := by
    decide +kernel
  obtain ⟨hw, ha, ho, hx⟩ := h n hn
  obtain ⟨u, hu⟩ := exists_next hx
  exact ⟨_, u, 0, ⟨0, 24, 16⟩, [], hw, ha, ho, hu, rfl⟩

theorem witness_ResetDuringGetfKeepsTheReads :
    ∀ n ∈ [0, 1, 2, 9], ∃ (s u : State) (f : BitVec 8) (d : Descriptor) (rest : List Transaction),
      Accepts s f d ∧ OwnsField s d ∧ exec (.getf f) s = .next u ∧ s.port = .resetDuring (encode (.getf f)) n :: rest := by
  intro n hn
  have h : ∀ n ∈ [0, 1, 2, 9], let s := pending (.resetDuring (encode (.getf 0)) n) (bench 0 24 16 0)
      Accepts s 0 ⟨0, 24, 16⟩ ∧ OwnsField s ⟨0, 24, 16⟩ ∧ (nextOf (exec (.getf 0) s)).isSome = true := by decide +kernel
  obtain ⟨ha, ho, hx⟩ := h n hn
  obtain ⟨u, hu⟩ := exists_next hx
  exact ⟨_, u, 0, ⟨0, 24, 16⟩, [], ha, ho, hu, rfl⟩

theorem witness_IdIsConstant :
    (∃ (s : State) (rest : List Transaction), s.port = .hostRead (regWord 0x000) :: rest) ∧
      ∃ (s : State) (d : Word) (rest : List Transaction), s.port = .hostWrite (regWord 0x000) d :: rest :=
  ⟨⟨pending (.hostRead (regWord 0x000)) State.reset, [], rfl⟩,
    pending (.hostWrite (regWord 0x000) 0xFFFFFFFF) State.reset, 0xFFFFFFFF, [], rfl⟩

theorem witness_CapReadsTheParameters :
    ∃ (s : State) (rest : List Transaction), s.params.wf = true ∧ s.port = .hostRead (regWord 0x004) :: rest :=
  ⟨pending (.hostRead (regWord 0x004)) State.reset, [], by decide, rfl⟩

/-- At the first and the last register of the list. -/
theorem witness_HostReadReturnsTheRegister :
    ∀ off ∈ [0x008, 0x02C], ∃ (s : State) (rest : List Transaction) (v : Word),
      (off, v) ∈ [(0x008, 0), (0x00C, s.status.setWidth 32), (0x010, s.bufBase), (0x014, s.bufCtrl.setWidth 32),
        (0x018, s.bufLen.setWidth 32), (0x01C, s.nfields.setWidth 32), (0x020, s.val.extractLsb' 0 32),
        (0x024, s.val.extractLsb' 32 32), (0x028, s.res.extractLsb' 0 32), (0x02C, s.res.extractLsb' 32 32)] ∧
      s.port = .hostRead (regWord off) :: rest := by
  intro off h
  refine ⟨pending (.hostRead (regWord off)) State.reset, [], 0, ?_, rfl⟩
  simp only [List.mem_cons, List.not_mem_nil, or_false] at h
  rcases h with rfl | rfl <;> decide

/-- At both ends of the reserved range. -/
theorem witness_ReservedOffsetsReadZeroAndIgnoreWrites :
    ∀ off ∈ [0x030, 0x3FC], 0x030 ≤ off ∧ off ≤ 0x3FC ∧ off % 4 = 0 ∧
      (∃ (s : State) (rest : List Transaction), s.port = .hostRead (regWord off) :: rest) ∧
      ∃ (s : State) (d : Word) (rest : List Transaction), s.port = .hostWrite (regWord off) d :: rest := by
  intro off h
  have hr : 0x030 ≤ off ∧ off ≤ 0x3FC ∧ off % 4 = 0 := by
    revert off; decide
  exact ⟨hr.1, hr.2.1, hr.2.2, ⟨pending (.hostRead (regWord off)) State.reset, [], rfl⟩,
    pending (.hostWrite (regWord off) 1) State.reset, 1, [], rfl⟩

theorem witness_ReadOnlyRegistersIgnoreWrites :
    ∀ off ∈ [0x000, 0x004, 0x00C, 0x028, 0x02C], ∃ (s : State) (d : Word) (rest : List Transaction),
      s.port = .hostWrite (regWord off) d :: rest :=
  fun off _ => ⟨pending (.hostWrite (regWord off) 1) State.reset, 1, [], rfl⟩

theorem witness_HostWriteStoresTheUsedBits :
    ∀ off ∈ [0x010, 0x014, 0x018, 0x01C, 0x020, 0x024], ∃ (s : State) (d : Word) (rest : List Transaction),
      s.port = .hostWrite (regWord off) d :: rest :=
  fun off _ => ⟨pending (.hostWrite (regWord off) 0xFFFFFFFF) State.reset, 0xFFFFFFFF, [], rfl⟩

/-- At BUF_BASE, at VAL_HI, and at the first and the last entry of DT. -/
theorem witness_WriteThenReadReturnsTheUsedBits :
    ∀ e ∈ [(0x010, 32), (0x024, 32), (0x400, 24), (0x7FC, 24)], ∃ (s : State) (d : Word) (rest : List Transaction),
      s.params.wf = true ∧
      ((e.1, e.2) ∈ [(0x010, s.params.addrW), (0x014, 2), (0x018, 16), (0x01C, 9), (0x020, 32), (0x024, 32)] ∨
        (e.2 = 24 ∧ ∃ i : BitVec 8, e.1 = 0x400 + 4 * i.toNat)) ∧
      s.port = .hostWrite (regWord e.1) d :: .hostRead (regWord e.1) :: rest := by
  intro e h
  refine ⟨{ State.reset with port := [.hostWrite (regWord e.1) 0xFFFFFFFF, .hostRead (regWord e.1)] }, 0xFFFFFFFF, [],
    (by decide : Params.default.wf = true), ?_, rfl⟩
  simp only [List.mem_cons, List.not_mem_nil, or_false] at h
  rcases h with rfl | rfl | rfl | rfl
  · exact .inl (by decide)
  · exact .inl (by decide)
  · exact .inr ⟨rfl, 0, by decide⟩
  · exact .inr ⟨rfl, 255, by decide⟩

/-- At the first and the last entry of DT. -/
theorem witness_DescriptorWriteStoresTheFields :
    ∀ i ∈ [(0 : BitVec 8), 255],
      (∃ (s : State) (d : Word) (rest : List Transaction), s.port = .hostWrite (regWord (0x400 + 4 * i.toNat)) d :: rest) ∧
      (∃ (s : State) (e : Descriptor) (rest : List Transaction), s.descriptor i = some e ∧
        s.port = .hostRead (regWord (0x400 + 4 * i.toNat)) :: rest) ∧
      ∃ (j : Instr) (s t : State), exec j s = .next t := by
  intro i _
  refine ⟨⟨pending (.hostWrite (regWord (0x400 + 4 * i.toNat)) 1) State.reset, 1, [], rfl⟩,
    ⟨setDescriptor i ⟨1, 2, 3⟩ (pending (.hostRead (regWord (0x400 + 4 * i.toNat))) State.reset), ⟨1, 2, 3⟩, [], ?_, rfl⟩,
    .getf 0, State.reset, _, rfl⟩
  simp [State.descriptor, setDescriptor, State.reset, State.resetOf, pending, assocSet, assocGet]

theorem witness_UnwrittenDescriptorReadsSomeValue :
    ∀ i ∈ [(0 : BitVec 8), 255], ∃ (s : State) (rest : List Transaction),
      s.descriptor i = none ∧ s.port = .hostRead (regWord (0x400 + 4 * i.toNat)) :: rest :=
  fun i _ => ⟨pending (.hostRead (regWord (0x400 + 4 * i.toNat))) State.reset, [], rfl, rfl⟩

/-- At the lowest address and at one that wraps. -/
theorem witness_CallerStoreWritesOneByte :
    ∀ addr ∈ [(0 : BitVec 32), 0xFFFFFFFF], ∃ (s : State) (v : Byte) (rest : List Transaction),
      s.port = .callerStore addr v :: rest :=
  fun addr _ => ⟨pending (.callerStore addr 7) (bench 0 0 0 0), 7, [], rfl⟩

theorem witness_DecodeOfEncodeIsTheInstruction : ∃ i : Instr, i.wf = true := ⟨.getf 255, rfl⟩

theorem witness_DecodeFollowsTheOpcodeMap :
    ∃ w : Word, w &&& 0xFFFF00FF ∉ [(0x00000001 : Word), 0x00000002] ∧
      w ∉ [(0x00000008 : Word), 0x00000009, 0x0000000A, 0x0000000C, 0x0000000D, 0x0000000E] := ⟨0x0B, by decide +kernel, by decide +kernel⟩

/-- A word of each kind R64 names, reserved codes at the ends of their ranges; and a legal one. -/
theorem witness_IllegalWordsRaiseIllegalCmd :
    (∀ w ∈ [(0x00 : Word), 0x03, 0x07, 0x0B, 0x0F, 0x11, 0x00010001, 0x108, 0xFF0E],
      (w.extractLsb' 0 4 ∈ [(0x0 : BitVec 4), 0x3, 0x4, 0x5, 0x6, 0x7, 0xB, 0xF] ∨ w.extractLsb' 4 4 ≠ 0 ∨
        w.extractLsb' 16 16 ≠ 0 ∨ (w.getLsbD 3 = true ∧ w.extractLsb' 8 8 ≠ 0)) ∧
      ∃ (s : State) (rest : List Transaction), s.port = .hostWrite (regWord 0x008) w :: rest) ∧
    ∀ w ∈ [(0x01 : Word), 0xFF02, 0x08, 0x0E],
      ¬ (w.extractLsb' 0 4 ∈ [(0x0 : BitVec 4), 0x3, 0x4, 0x5, 0x6, 0x7, 0xB, 0xF] ∨ w.extractLsb' 4 4 ≠ 0 ∨
        w.extractLsb' 16 16 ≠ 0 ∨ (w.getLsbD 3 = true ∧ w.extractLsb' 8 8 ≠ 0)) := by
  refine ⟨fun w hw => ⟨?_, pending (.hostWrite (regWord 0x008) w) State.reset, [], rfl⟩, fun w hw => ?_⟩
  · simp only [List.mem_cons, List.not_mem_nil, or_false] at hw
    rcases hw with rfl | rfl | rfl | rfl | rfl | rfl | rfl | rfl | rfl <;> decide +kernel
  · simp only [List.mem_cons, List.not_mem_nil, or_false] at hw
    rcases hw with rfl | rfl | rfl | rfl <;> decide +kernel

theorem witness_StepRunsTheDecodedCommand :
    ∃ (s : State) (w : Word) (i : Instr) (rest : List Transaction),
      s.port = .hostWrite (regWord 0x008) w :: rest ∧ decode w = .ok i :=
  ⟨pending (.hostWrite (regWord 0x008) 0x101) (bench 0 24 16 0), 0x101, .getf 1, [], rfl, by decide⟩

theorem witness_StepWaitsForATransaction : ∃ s : State, s.port = [] := ⟨State.reset, rfl⟩

theorem witness_AdapterCommandsAreInvolutions :
    ∀ e ∈ [(Instr.htobe16, Instr.betoh16, 16), (.htobe16, .htobe16, 16), (.htobe32, .betoh32, 32), (.htobe32, .htobe32, 32),
      (.htobe64, .betoh64, 64), (.htobe64, .htobe64, 64)],
      ∃ s t u : State, exec e.1 s = .next t ∧ exec e.2.1 { t with val := t.res } = .next u := by
  intro e h
  simp only [List.mem_cons, List.not_mem_nil, or_false] at h
  rcases h with rfl | rfl | rfl | rfl | rfl | rfl <;> exact ⟨bench 0 0 0 0x1234, _, _, rfl, rfl⟩

/-- Both byte orders, at the first word of the buffer and at the last word it holds. -/
theorem witness_WordAccessesAreBigEndian :
    ∀ j ∈ [0, 2], ∀ le ∈ [true, false], ∃ (s : State) (q : Quad),
      quadAt s (wordAddr s j) = some q ∧ s.params.wf = true ∧ s.params.hostLe = le := by
  intro j hj le _
  have h : ∀ j ∈ [0, 2], (quadAt (bench 0 0 0 0) (wordAddr (bench 0 0 0 0) j)).isSome = true := by decide
  obtain ⟨q, hq⟩ := Option.isSome_iff_exists.mp (h j hj)
  exact ⟨{ bench 0 0 0 0 with params := ⟨le, 12⟩ }, q, hq, by decide +revert, rfl⟩

theorem witness_FieldHasNwordsChunks :
    ∀ e ∈ [((0 : BitVec 8), (0 : BitVec 8)), (64, 0), (64, 31), (1, 31)],
      ∃ d : Descriptor, d.bitWidth = e.1 ∧ d.bitOffset = e.2 ∧ d.bitWidth.toNat ≤ 64 ∧ d.bitOffset.toNat ≤ 31 := by
  intro e h
  refine ⟨⟨255, e.2, e.1⟩, rfl, rfl, ?_⟩
  simp only [List.mem_cons, List.not_mem_nil, or_false] at h
  rcases h with rfl | rfl | rfl | rfl <;> decide +kernel

theorem witness_ChunkQuantitiesFitTheirWidths :
    ∀ e ∈ [((1 : BitVec 8), (0 : BitVec 8)), (64, 0), (64, 31), (1, 31)], ∃ (d : Descriptor) (c : Chunk),
      d.bitWidth.toNat ≤ 64 ∧ d.bitOffset.toNat ≤ 31 ∧ c ∈ d.chunks := by
  intro e h
  refine ⟨⟨255, e.2, e.1⟩, chunkAt 255 e.2.toNat e.1.toNat 0 0, ?_⟩
  simp only [List.mem_cons, List.not_mem_nil, or_false] at h
  rcases h with rfl | rfl | rfl | rfl <;> decide +kernel

/-- The first and the last row of the table. -/
theorem witness_ChunkSplitTable :
    ∀ r ∈ [(0, 1, 31, [(1, (0x80000000 : Word))]), (31, 2, 0, [(1, 0x00000001), (1, 0x80000000)])],
      r ∈ ([(0, 1, 31, [(1, 0x80000000)]), (31, 1, 0, [(1, 0x00000001)]), (0, 7, 25, [(7, 0xFE000000)]),
        (7, 9, 16, [(9, 0x01FF0000)]), (0, 8, 24, [(8, 0xFF000000)]), (24, 8, 0, [(8, 0x000000FF)]),
        (24, 16, 0, [(8, 0x000000FF), (8, 0xFF000000)]), (16, 16, 0, [(16, 0x0000FFFF)]), (8, 24, 0, [(24, 0x00FFFFFF)]),
        (3, 29, 0, [(29, 0x1FFFFFFF)]), (20, 29, 0, [(12, 0x00000FFF), (17, 0xFFFF8000)]), (0, 32, 0, [(32, 0xFFFFFFFF)]),
        (16, 32, 0, [(16, 0x0000FFFF), (16, 0xFFFF0000)]), (0, 64, 0, [(32, 0xFFFFFFFF), (32, 0xFFFFFFFF)]),
        (1, 64, 0, [(31, 0x7FFFFFFF), (32, 0xFFFFFFFF), (1, 0x80000000)]),
        (31, 64, 0, [(1, 0x00000001), (32, 0xFFFFFFFF), (31, 0xFFFFFFFE)]),
        (31, 2, 0, [(1, 0x00000001), (1, 0x80000000)])] : List (Nat × Nat × Nat × List (Nat × Word))) := by decide

/-- One state for each check, at the boundary: no buffer; the index equal to NFIELDS; width 65; offset 32; a length one byte
short of what the field needs. -/
theorem witness_FailedChecksReportInOrder :
    (∃ s : State, s.bufCtrl.getLsbD 0 = false) ∧
    (∃ (s : State) (f : BitVec 8), s.bufCtrl.getLsbD 0 = true ∧ s.nfields.toNat = f.toNat ∧ s.nfields.toNat ≤ f.toNat) ∧
    (∀ e ∈ [((0 : BitVec 8), (65 : BitVec 8)), (32, 1)], ∃ (s : State) (f : BitVec 8) (d : Descriptor),
      s.bufCtrl.getLsbD 0 = true ∧ f.toNat < s.nfields.toNat ∧ s.descriptor f = some d ∧
        d.bitOffset = e.1 ∧ d.bitWidth = e.2 ∧ (64 < d.bitWidth.toNat ∨ 31 < d.bitOffset.toNat)) ∧
    ∃ (s : State) (f : BitVec 8) (d : Descriptor),
      s.bufCtrl.getLsbD 0 = true ∧ f.toNat < s.nfields.toNat ∧ s.descriptor f = some d ∧ d.bitWidth.toNat ≤ 64 ∧
        d.bitOffset.toNat ≤ 31 ∧ s.bufCtrl.getLsbD 1 = true ∧ 0 < d.bitWidth.toNat ∧
        s.bufLen.toNat + 1 = 4 * (d.wordIndex.toNat + (d.bitOffset.toNat + d.bitWidth.toNat + 31) / 32) := by
  refine ⟨⟨State.reset, by decide⟩, ⟨bench 0 0 1 0, 1, by decide, by decide, by decide⟩, ?_,
    ⟨{ bench 0 24 16 0 with bufCtrl := 3, bufLen := 7 }, 0, ⟨0, 24, 16⟩, by decide +kernel⟩⟩
  intro e h
  refine ⟨bench 0 e.1 e.2 0, 0, ⟨0, e.1, e.2⟩, ?_⟩
  simp only [List.mem_cons, List.not_mem_nil, or_false] at h
  rcases h with rfl | rfl <;> decide +kernel

/-- NFIELDS at 0, equal to the index, and at 256 and 511. -/
theorem witness_IndexRangeAtTheEndsOfNfields :
    (∃ (s : State) (f : BitVec 8), s.bufCtrl.getLsbD 0 = true ∧ s.nfields.toNat = f.toNat ∧ s.nfields ≠ 0) ∧
    (∃ s : State, s.bufCtrl.getLsbD 0 = true ∧ s.nfields = 0) ∧
    ∀ n ∈ [(256 : BitVec 9), 511], ∃ (s : State) (d : Descriptor), s.nfields = n ∧ s.bufCtrl.getLsbD 0 = true ∧
      256 ≤ s.nfields.toNat ∧ s.descriptor 255 = some d ∧ d.bitWidth.toNat ≤ 64 ∧ d.bitOffset.toNat ≤ 31 ∧
      s.bufCtrl.getLsbD 1 = false ∧ OwnsField s d := by
  refine ⟨⟨bench 0 0 1 0, 1, by decide⟩, ⟨{ bench 0 0 1 0 with nfields := 0 }, by decide⟩, ?_⟩
  intro n hn
  refine ⟨{ bench 0 24 16 0 with nfields := n, dt := [(255, ⟨0, 24, 16⟩)] }, ⟨0, 24, 16⟩, ?_⟩
  simp only [List.mem_cons, List.not_mem_nil, or_false] at hn
  rcases hn with rfl | rfl <;> decide +kernel

/-- A command that completes, beyond a BUF_LEN of 0, and one that is refused. -/
theorem witness_BufLenHasNoEffectWithoutLenchk :
    (∃ s t : State, s.bufCtrl.getLsbD 1 = false ∧ s.bufLen = 0 ∧ exec (.getf 0) s = .next t) ∧
      ∃ (s : State) (r : Refusal), s.bufCtrl.getLsbD 1 = false ∧ exec (.getf 0) s = .refused r :=
  ⟨⟨bench 0 24 16 0, _, by decide, rfl, rfl⟩, bench 3 0 1 0, _, by decide, rfl⟩

/-- A command that fails and one that completes. -/
theorem witness_EngineCommandsNeverFinishHalfway :
    (∃ s t : State, exec (.setf 0) s = .next t ∧ t.status = 0x031) ∧
      ∃ s t : State, exec (.setf 0) s = .next t ∧ t.status = 0x000 :=
  ⟨⟨bench 0 0 65 0, _, rfl, rfl⟩, bench 0 24 16 0, _, rfl, rfl⟩

theorem witness_UnwrittenDescriptorIsRefused :
    ∃ (s : State) (f : BitVec 8), s.bufCtrl.getLsbD 0 = true ∧ f.toNat < s.nfields.toNat ∧ s.descriptor f = none :=
  ⟨{ bench 0 0 1 0 with nfields := 2 }, 1, by decide, by decide, rfl⟩

/-- The one byte that is missing is the last of the last word the field touches. -/
theorem witness_AccessOutsideTheStorageIsRefused :
    ∃ (s : State) (f : BitVec 8) (d : Descriptor), Accepts s f d ∧ ¬ OwnsField s d :=
  ⟨{ bench 0 1 64 0 with mem := bytes12.dropLast }, 0, ⟨0, 1, 64⟩, by decide, by decide⟩

theorem witness_ZeroWidthFieldTouchesNothing :
    ∃ (s : State) (f : BitVec 8) (d : Descriptor), s.bufCtrl.getLsbD 0 = true ∧ f.toNat < s.nfields.toNat ∧
      s.descriptor f = some d ∧ d.bitWidth = 0 ∧ d.bitOffset.toNat ≤ 31 :=
  ⟨{ bench 255 31 0 0 with bufCtrl := 3 }, 0, ⟨255, 31, 0⟩, by decide, by decide, rfl, rfl, by decide⟩

/-- Accepted and owned fields: the ends of width and offset, and the length check on with a length that just suffices. Meets
the hypotheses of `GetfReadsTheFieldBits`, `GetfCutsTheFieldFromTheWords`, `SetfWritesTheFieldBits`, `EngineAccessesInOrder`
and `SetfThenGetfRoundTrip`. -/
theorem witness_accepted_fields :
    ∀ e ∈ [((0 : BitVec 8), (0 : BitVec 8), (0 : BitVec 8)), (0, 0, 1), (2, 31, 1), (0, 0, 64), (0, 31, 64), (1, 0, 64)],
      ∃ (s : State) (f : BitVec 8) (d : Descriptor), d = ⟨e.1, e.2.1, e.2.2⟩ ∧ s.bufCtrl = 3 ∧ s.bufLen = 12 ∧
        s.params.wf = true ∧ Accepts s f d ∧ OwnsField s d := by
  intro e h
  refine ⟨{ bench e.1 e.2.1 e.2.2 0x0123456789ABCDEF with bufCtrl := 3, bufLen := 12 }, 0, ⟨e.1, e.2.1, e.2.2⟩, ?_⟩
  simp only [List.mem_cons, List.not_mem_nil, or_false] at h
  rcases h with rfl | rfl | rfl | rfl | rfl | rfl <;> decide +kernel

/-- A byte just past the touched words, the field inside the storage; and a SETF that fails. -/
theorem witness_SetfChangesOnlyTheTouchedWords :
    (∃ (s t : State) (f : BitVec 8) (d : Descriptor) (a : Nat), exec (.setf f) s = .next t ∧ s.descriptor f = some d ∧
      OutsideField s d a ∧ a = 8) ∧
    ∃ (s t : State) (f : BitVec 8), exec (.setf f) s = .next t ∧ statusCode t.status ≠ 0 := by
  refine ⟨?_, bench 0 32 1 0, _, 0, rfl, by decide⟩
  obtain ⟨t, ht⟩ : ∃ t, exec (.setf 0) (bench 0 24 16 0) = .next t := exists_next rfl
  exact ⟨_, t, 0, ⟨0, 24, 16⟩, 8, ht, rfl, by decide, rfl⟩

/-- A completed command with the length check on and the length that just suffices. -/
theorem witness_EngineReachIsBounded :
    ∃ (s t : State) (i : Instr), exec i s = .next t ∧ s.bufCtrl.getLsbD 1 = true ∧ t.memLog ≠ [] :=
  ⟨{ bench 0 1 64 0 with bufCtrl := 3, bufLen := 12 }, _, .getf 0, rfl, rfl, by decide⟩

theorem witness_SetfTruncatesTheValue :
    ∃ (s t : State) (f : BitVec 8) (d : Descriptor) (v : Value), s.descriptor f = some d ∧
      v.toNat = s.val.toNat % 2 ^ d.bitWidth.toNat ∧ v ≠ s.val ∧ exec (.setf f) s = .next t :=
  ⟨bench 0 0 8 0x1FF, _, 0, ⟨0, 0, 8⟩, 0xFF, rfl, by decide, by decide, rfl⟩

/-- Two commands that complete. -/
theorem witness_RepeatedCommandsAreIdempotent :
    ∃ (s t t' : State) (f : BitVec 8), s.params.wf = true ∧ exec (.getf f) s = .next t ∧ exec (.setf f) s = .next t' :=
  ⟨bench 0 24 16 0xABCD, _, _, 0, by decide, rfl, rfl⟩

/-- A command that completes and one that is refused. -/
theorem witness_EngineIgnoresTheHostByteOrder :
    (∃ s t : State, exec (.getf 0) s = .next t) ∧ ∃ (s : State) (r : Refusal), exec (.getf 0) s = .refused r :=
  ⟨⟨bench 0 24 16 0, _, rfl⟩, bench 3 0 1 0, _, rfl⟩

/-- A command of each of the three kinds. -/
theorem witness_CommandsChangeOnlyTheirState :
    ∀ i ∈ [Instr.getf 0, .setf 0, .htobe16], ∃ s t : State, exec i s = .next t := by
  intro i h
  simp only [List.mem_cons, List.not_mem_nil, or_false] at h
  rcases h with rfl | rfl | rfl <;> exact ⟨bench 0 24 16 0, _, rfl⟩

/-- A command, a write of BUF_BASE, the caller's store, and waiting. Meets the hypotheses of `NoStepChangesTheParameters` too. -/
theorem witness_EveryStepKeepsTheStateSound :
    ∀ p ∈ [[Transaction.hostWrite cmdReg 0x00000002], [.hostWrite (regWord 0x010) 0xFFFFFFFF], [.callerStore 0xFFFFFFFF 1], []],
      ∃ s t : State, s.port = p ∧ s.Inv ∧ step s = .next t := by
  intro p hp
  have h : ∀ p ∈ [[Transaction.hostWrite cmdReg 0x00000002], [.hostWrite (regWord 0x010) 0xFFFFFFFF],
      [.callerStore 0xFFFFFFFF 1], []],
      let s : State := { bench 0 24 16 0xABCD with port := p }
      s.Inv ∧ (nextOf (step s)).isSome = true := by decide +kernel
  obtain ⟨hi, hx⟩ := h p hp
  obtain ⟨t, ht⟩ := exists_next hx
  exact ⟨_, t, rfl, hi, ht⟩

theorem witness_ResetStateIsSound : ∃ p : Params, p.wf = true := ⟨⟨false, 12⟩, by decide⟩

end Sys2Proof.Tests
end

section
/-! R6: GETF and SETF on a BFX of the other byte order. Changing HOST_LE commutes with each operation the two commands
are made of, because the adapter's conversion cancels the host's lane order in every word access (R106 to R108). -/

namespace Sys2Proof.Machine

/-- The same state of a BFX whose HOST_LE is `le`. -/
def State.withHostLe (le : Bool) (s : State) : State := { s with params := { s.params with hostLe := le } }

theorem withHostLe_of_params (le : Bool) {s t : State} (h : t.params = s.params) :
    t.withHostLe le = { t with params := { s.params with hostLe := le } } := by
  rw [State.withHostLe, h]

/-- The same outcome on a BFX whose HOST_LE is `le`. -/
def outcomeWithHostLe (le : Bool) : Host.Outcome State Fault Refusal → Host.Outcome State Fault Refusal
  | .next t => .next (t.withHostLe le)
  | .fault x => .fault x
  | .refused r => .refused r

/-! ## What reads no HOST_LE: addresses, memory, validation -/

@[simp] theorem val_withHostLe (le : Bool) (s : State) : (s.withHostLe le).val = s.val := rfl
@[simp] theorem wordAddr_withHostLe (le : Bool) (s : State) (j : Nat) : wordAddr (s.withHostLe le) j = wordAddr s j := rfl
@[simp] theorem quadAt_withHostLe (le : Bool) (s : State) (a : Nat) : quadAt (s.withHostLe le) a = quadAt s a := rfl
@[simp] theorem validate_withHostLe (le : Bool) (f : BitVec 8) (s : State) :
    validate f (s.withHostLe le) = validate f s := validate_congr rfl rfl rfl rfl
@[simp] theorem logEvent_withHostLe (le : Bool) (e : MemEvent) (s : State) :
    logEvent e (s.withHostLe le) = (logEvent e s).withHostLe le := rfl
@[simp] theorem setQuad_withHostLe (le : Bool) (a : Nat) (q : Quad) (s : State) :
    setQuad a q (s.withHostLe le) = (setQuad a q s).withHostLe le := rfl

theorem memRead_withHostLe (le : Bool) (s : State) (a : Nat) :
    memRead (s.withHostLe le) a = (memRead s a).map (Prod.map id (State.withHostLe le)) := by
  unfold memRead
  cases hq : quadAt s a <;> simp [hq]

theorem memWrite_withHostLe (le : Bool) (s : State) (a : Nat) (q : Quad) :
    memWrite (s.withHostLe le) a q = (memWrite s a q).map (State.withHostLe le) := by
  unfold memWrite
  cases hq : quadAt s a <;> simp [hq]

/-! ## The word accesses, where the two byte orders cancel (R106, R107) -/

theorem loadWord_withHostLe (le : Bool) (s : State) (j : Nat) :
    loadWord (s.withHostLe le) j = (loadWord s j).map (Prod.map id (State.withHostLe le)) := by
  simp only [loadWord, beToHost32_rawOfBytes, wordAddr_withHostLe, memRead_withHostLe]
  cases memRead s (wordAddr s j) <;> simp

theorem storeWord_withHostLe (le : Bool) (s : State) (j : Nat) (w : Word) :
    storeWord (s.withHostLe le) j w = (storeWord s j w).map (State.withHostLe le) := by
  simp only [storeWord, bytesOfRaw_hostToBE32, wordAddr_withHostLe, memWrite_withHostLe]

/-! ## The loops (R110, R111) -/

theorem extractChunks_withHostLe (le : Bool) (cs : List Chunk) (r : Value) (s : State) :
    extractChunks cs r (s.withHostLe le) = (extractChunks cs r s).map (Prod.map id (State.withHostLe le)) := by
  induction cs generalizing r s with
  | nil => rfl
  | cons c rest ih =>
    rw [extractChunks, extractChunks, loadWord_withHostLe]
    cases loadWord s c.word with
    | none => rfl
    | some p => exact ih _ p.2

theorem injectChunks_withHostLe (le : Bool) (v : Value) (cs : List Chunk) (s : State) :
    injectChunks v cs (s.withHostLe le) = (injectChunks v cs s).map (State.withHostLe le) := by
  induction cs generalizing s with
  | nil => rfl
  | cons c rest ih =>
    rw [injectChunks, injectChunks, loadWord_withHostLe]
    cases loadWord s c.word with
    | none => rfl
    | some p =>
      simp only [Option.map_some, Prod.map, id_eq, storeWord_withHostLe]
      cases storeWord p.2 c.word (mergeChunk c v p.1) with
      | none => rfl
      | some s' => exact ih s'

theorem extractField_withHostLe (le : Bool) (d : Descriptor) (s : State) :
    extractField d (s.withHostLe le) = (extractField d s).map (Prod.map id (State.withHostLe le)) :=
  extractChunks_withHostLe le d.chunks 0 s

theorem injectField_withHostLe (le : Bool) (d : Descriptor) (s : State) :
    injectField d (s.withHostLe le) = (injectField d s).map (State.withHostLe le) :=
  injectChunks_withHostLe le _ d.chunks s

/-! ## The commands -/

theorem execGetf_withHostLe (le : Bool) (f : BitVec 8) (s : State) :
    execGetf f (s.withHostLe le) = outcomeWithHostLe le (execGetf f s) := by
  unfold execGetf
  rw [validate_withHostLe]
  cases validate f s with
  | failed c => rfl
  | unwritten => rfl
  | passed d =>
    simp only [extractField_withHostLe]
    cases extractField d s <;> rfl

theorem execSetf_withHostLe (le : Bool) (f : BitVec 8) (s : State) :
    execSetf f (s.withHostLe le) = outcomeWithHostLe le (execSetf f s) := by
  unfold execSetf
  rw [validate_withHostLe]
  cases validate f s with
  | failed c => rfl
  | unwritten => rfl
  | passed d =>
    simp only [injectField_withHostLe]
    cases injectField d s <;> rfl

theorem execGetf_params {f : BitVec 8} {s t : State} (h : execGetf f s = .next t) : t.params = s.params := by
  rcases execGetf_eq_next.1 h with ⟨c, -, rfl⟩ | ⟨d, r, s', -, he, rfl⟩
  · rfl
  · rw [completeWithResult_params, extractChunks_frame he]

theorem execSetf_params {f : BitVec 8} {s t : State} (h : execSetf f s = .next t) : t.params = s.params := by
  rcases execSetf_eq_next.1 h with ⟨c, -, rfl⟩ | ⟨d, s', -, he, rfl⟩
  · rfl
  · rw [completeWithoutResult_params, injectChunks_frame he]

section EngineCommand

variable {i : Instr} {f : BitVec 8}

/-- R6: changing HOST_LE before an engine command or after it is the same. -/
theorem exec_engine_withHostLe (hi : i = .getf f ∨ i = .setf f) (le : Bool) (s : State) :
    exec i (s.withHostLe le) = outcomeWithHostLe le (exec i s) := by
  rcases hi with rfl | rfl
  · exact execGetf_withHostLe le f s
  · exact execSetf_withHostLe le f s

theorem exec_engine_params (hi : i = .getf f ∨ i = .setf f) {s t : State} (h : exec i s = .next t) :
    t.params = s.params := by
  rcases hi with rfl | rfl
  · exact execGetf_params h
  · exact execSetf_params h

end EngineCommand

/-- Settles O49: its clauses are the two kinds of answer in `exec_engine_withHostLe`, a next state keeping the parameters. -/
theorem engineIgnoresTheHostByteOrder : Obligations.EngineIgnoresTheHostByteOrder := by
  intro s f i le hi
  have hle := exec_engine_withHostLe hi le s
  constructor
  · intro t ht
    rw [← withHostLe_of_params le (exec_engine_params hi ht)]
    rw [ht] at hle
    exact hle
  · intro r hr
    rw [hr] at hle
    exact hle

end Sys2Proof.Machine
end

section
/-! What a step does with each transaction of the register port, each said once: a HostRead, a HostWrite, a command word, a
reset (R13, R17, R160); and what the registers hold and answer (R12 to R31). -/

namespace Sys2Proof.Machine

/-! ## The register map (R12, R26) -/

theorem lowReg_ne_cmd {off : Nat} (h : off ≠ 0x008) : lowReg off ≠ .cmd := by
  unfold lowReg
  split <;> simp_all

theorem lowReg_of_reserved {off : Nat} (h : 0x030 ≤ off) : lowReg off = .reserved := by
  unfold lowReg
  split
  case h_13 => rfl
  all_goals omega

theorem regAt_regWord_low {off : Nat} (h : off < 0x400) (h4 : off % 4 = 0) : regAt (regWord off) = lowReg off := by
  have hw : (regWord off).toNat = off / 4 := by
    rw [regWord, BitVec.toNat_ofNat]
    omega
  rw [regAt, hw, if_pos (by omega), Nat.mul_div_cancel' (Nat.dvd_of_mod_eq_zero h4)]

theorem regAt_regWord_dt (i : BitVec 8) : regAt (regWord (0x400 + 4 * i.toNat)) = .dt i := by
  have hw : (regWord (0x400 + 4 * i.toNat)).toNat = 256 + i.toNat := by
    rw [regWord, BitVec.toNat_ofNat]
    omega
  rw [regAt, hw, if_neg (by omega), Nat.add_sub_cancel_left, BitVec.ofNat_toNat, BitVec.setWidth_eq]

/-- What the host still has to do is no part of what it reads. -/
theorem regValue_port (r : Reg) (s : State) (rest : List Transaction) : regValue r { s with port := rest } = regValue r s := by
  cases r <;> rfl

/-! ## One step for each transaction -/

section Step

variable {s : State} {rest : List Transaction} {reg : BitVec 9} {d : Word} {off : Nat}

theorem takeTransaction_cons {x : Transaction} (hp : s.port = x :: rest) :
    takeTransaction s = some (x, { s with port := rest }) := by
  rw [takeTransaction, hp]

theorem step_idle (hp : s.port = []) : step s = .next s := by
  rw [step, nextAction, takeTransaction, hp]

/-- R13: a HostRead changes what the host last read, and the count of free values where it drew one. -/
theorem step_hostRead (hp : s.port = .hostRead reg :: rest) :
    step s = .next { s with
      port := rest, rdata := regValue (regAt reg) s, draws := drawsAfterRead (regAt reg) s } := by
  rw [step, nextAction, takeTransaction_cons hp, ← regValue_port _ s rest]
  rfl

theorem step_hostWrite (hp : s.port = .hostWrite reg d :: rest) (hr : regAt reg ≠ .cmd) :
    step s = .next (writeReg (regAt reg) d { s with port := rest }) := by
  rw [step, nextAction, takeTransaction_cons hp]
  simp only [hostWriteAction]

/-- R17: a command word that decodes starts its command. -/
theorem step_command {i : Instr} (hp : s.port = .hostWrite reg d :: rest) (hr : regAt reg = .cmd) (hd : decode d = .ok i) :
    step s = exec i { s with port := rest } := by
  rw [step, nextAction, takeTransaction_cons hp]
  simp only [hostWriteAction, startCommand, hr, hd]

/-- R64: a command word that does not decode fails with ILLEGAL_CMD. -/
theorem step_illegal {e : IllegalWord} (hp : s.port = .hostWrite reg d :: rest) (hr : regAt reg = .cmd)
    (hd : decode d = .error e) : step s = .next (raiseInvalidArgument .illegalCmd { s with port := rest }) := by
  rw [step, nextAction, takeTransaction_cons hp]
  simp only [hostWriteAction, startCommand, hr, hd]

theorem step_callerStore {addr : BitVec 32} {b : Byte} (hp : s.port = .callerStore addr b :: rest) :
    step s = .next (setByte addr.toNat b { s with port := rest }) := by
  rw [step, nextAction, takeTransaction_cons hp]

theorem step_reset (hp : s.port = .reset :: rest) : step s = .next (resetRegisters { s with port := rest }) := by
  rw [step, nextAction, takeTransaction_cons hp]

theorem step_resetDuring {w : Word} {n : Nat} (hp : s.port = .resetDuring w n :: rest) :
    step s = resetDuringCommand w n { s with port := rest } := by
  rw [step, nextAction, takeTransaction_cons hp]

/-- A HostRead below the descriptor RAM draws no free value. -/
theorem step_hostRead_low (h : off < 0x400) (h4 : off % 4 = 0) (hp : s.port = .hostRead (regWord off) :: rest) :
    step s = .next { s with port := rest, rdata := regValue (lowReg off) s } := by
  have hd : drawsAfterRead (lowReg off) s = s.draws := by
    unfold lowReg
    split <;> rfl
  rw [step_hostRead hp, regAt_regWord_low h h4, hd]

theorem step_hostWrite_low (h : off < 0x400) (h4 : off % 4 = 0) (hc : off ≠ 0x008)
    (hp : s.port = .hostWrite (regWord off) d :: rest) :
    step s = .next (writeReg (lowReg off) d { s with port := rest }) := by
  have hr := regAt_regWord_low h h4
  rw [step_hostWrite hp (hr ▸ lowReg_ne_cmd hc), hr]

theorem step_hostRead_dt {i : BitVec 8} (hp : s.port = .hostRead (regWord (0x400 + 4 * i.toNat)) :: rest) :
    step s = .next { s with
      port := rest, rdata := regValue (.dt i) s, draws := drawsAfterRead (.dt i) s } := by
  rw [step_hostRead hp, regAt_regWord_dt]

theorem step_hostWrite_dt {i : BitVec 8} (hp : s.port = .hostWrite (regWord (0x400 + 4 * i.toNat)) d :: rest) :
    step s = .next (setDescriptor i (descriptorOfWord d) { s with port := rest }) := by
  have hr := regAt_regWord_dt i
  rw [step_hostWrite hp (by simp [hr]), hr]
  rfl

/-- A HostWrite and then a HostRead of the same register: the second step answers what the register holds after the first. -/
theorem step_write_then_read (hr : regAt reg ≠ .cmd) (hp : s.port = .hostWrite reg d :: .hostRead reg :: rest) :
    ∃ t u, step s = .next t ∧ step t = .next u ∧ t = writeReg (regAt reg) d { s with port := .hostRead reg :: rest } ∧
      u.rdata = regValue (regAt reg) t := by
  have hport : (writeReg (regAt reg) d { s with port := .hostRead reg :: rest }).port = .hostRead reg :: rest := by
    cases regAt reg <;> rfl
  exact ⟨_, _, step_hostWrite hp hr, step_hostRead hport, rfl, rfl⟩

end Step

/-! ## Values of registers -/

theorem toNat_append_eq_add {m n : Nat} (x : BitVec m) (y : BitVec n) :
    (x ++ y).toNat = x.toNat * 2 ^ n + y.toNat := by
  rw [BitVec.toNat_append, ← Nat.shiftLeft_add_eq_or_of_lt y.isLt, Nat.shiftLeft_eq]

/-- R16: CAP as a number. -/
theorem toNat_capWord {p : Params} (hp : p.wf = true) : (capWord p).toNat = p.hostLe.toNat + 2 + 2 ^ 8 * p.addrW := by
  simp only [Params.wf, Bool.and_eq_true, decide_eq_true_eq] at hp
  simp only [capWord, toNat_append_eq_add, BitVec.ofNat_eq_ofNat, BitVec.toNat_ofNat, BitVec.toNat_ofBool]
  omega

/-- R19: what BUF_BASE keeps. -/
theorem toNat_bufBaseOf (p : Params) (d : Word) : (bufBaseOf p d).toNat = d.toNat % 2 ^ p.addrW := by
  rw [bufBaseOf, BitVec.toNat_ofNat]
  exact Nat.mod_eq_of_lt ((Nat.mod_le ..).trans_lt d.isLt)

theorem toNat_descriptorBits (d : Descriptor) :
    (descriptorBits d).toNat = d.wordIndex.toNat * 2 ^ 16 + d.bitOffset.toNat * 2 ^ 8 + d.bitWidth.toNat := by
  simp only [descriptorBits, toNat_append_eq_add]
  omega

/-- R28: the fields stored are the 24 used bits of the word written. -/
theorem toNat_descriptorBits_ofWord (d : Word) : (descriptorBits (descriptorOfWord d)).toNat = d.toNat % 2 ^ 24 := by
  simp only [toNat_descriptorBits, descriptorOfWord, BitVec.extractLsb'_toNat, Nat.shiftRight_eq_div_pow]
  omega

@[simp] theorem descriptor_setDescriptor_same (i : BitVec 8) (d : Descriptor) (s : State) :
    (setDescriptor i d s).descriptor i = some d :=
  assocGet_set_same ..

theorem descriptor_setDescriptor_other {i j : BitVec 8} (h : j ≠ i) (d : Descriptor) (s : State) :
    (setDescriptor i d s).descriptor j = s.descriptor j :=
  assocGet_set_other (fun he => h (BitVec.eq_of_toNat_eq he)) ..

theorem dtBits_of_written {s : State} {i : BitVec 8} {e : Descriptor} (h : s.descriptor i = some e) :
    dtBits i s = descriptorBits e := by
  rw [dtBits, h]

theorem drawsAfterRead_of_written {s : State} {i : BitVec 8} {e : Descriptor} (h : s.descriptor i = some e) :
    drawsAfterRead (.dt i) s = s.draws := by
  simp [drawsAfterRead, h]

/-- R12 (U2): bits 31:24 of what a HostRead of `DT[i]` returns are 0. -/
theorem toNat_regValue_dt (i : BitVec 8) (s : State) : (regValue (.dt i) s).toNat = (dtBits i s).toNat :=
  BitVec.toNat_setWidth_of_le (by decide)

end Sys2Proof.Machine
end

section
/-! The statements about the register port and reset (R11 to R31, R35). -/

namespace Sys2Proof.Machine

/-- Settles O5: one HostRead and one HostWrite below the descriptor RAM, at the register `id`. -/
theorem idIsConstant : Obligations.IdIsConstant := fun _ _ _ =>
  ⟨step_hostRead_low (by decide) (by decide), step_hostWrite_low (by decide) (by decide) (by decide)⟩

/-- Settles O6: CAP has its value by `toNat_capWord`. -/
theorem capReadsTheParameters : Obligations.CapReadsTheParameters := fun _ _ hwf hp =>
  ⟨_, step_hostRead_low (by decide) (by decide) hp, rfl, toNat_capWord hwf⟩

/-- Settles O7: at each offset of the list, `step_hostRead_low`. -/
theorem hostReadReturnsTheRegister : Obligations.HostReadReturnsTheRegister := by
  intro s rest off v h hp
  have hlow : off < 0x400 ∧ off % 4 = 0 ∧ v = regValue (lowReg off) s := by
    simp only [List.mem_cons, Prod.mk.injEq, List.not_mem_nil, or_false] at h
    rcases h with ⟨rfl, rfl⟩ | ⟨rfl, rfl⟩ | ⟨rfl, rfl⟩ | ⟨rfl, rfl⟩ | ⟨rfl, rfl⟩ | ⟨rfl, rfl⟩ | ⟨rfl, rfl⟩ | ⟨rfl, rfl⟩ |
      ⟨rfl, rfl⟩ | ⟨rfl, rfl⟩ <;> exact ⟨by decide, by decide, rfl⟩
  obtain ⟨hlt, h4, rfl⟩ := hlow
  exact step_hostRead_low hlt h4 hp

/-- Settles O8: every offset of the range is the register `reserved`. -/
theorem reservedOffsetsReadZeroAndIgnoreWrites : Obligations.ReservedOffsetsReadZeroAndIgnoreWrites := by
  intro s d rest off hlo hhi h4
  have hres := lowReg_of_reserved hlo
  constructor
  · intro hp
    rw [step_hostRead_low (by omega) h4 hp, hres]
    rfl
  · intro hp
    rw [step_hostWrite_low (by omega) h4 (by omega) hp, hres]
    rfl

/-- Settles O9: at each offset of the list, `writeReg` keeps the state. -/
theorem readOnlyRegistersIgnoreWrites : Obligations.ReadOnlyRegistersIgnoreWrites := by
  intro s d rest off h hp
  have hro : off < 0x400 ∧ off % 4 = 0 ∧ off ≠ 0x008 ∧
      writeReg (lowReg off) d { s with port := rest } = { s with port := rest } := by
    simp only [List.mem_cons, List.not_mem_nil, or_false] at h
    rcases h with rfl | rfl | rfl | rfl | rfl <;> exact ⟨by decide, by decide, by decide, rfl⟩
  obtain ⟨hlt, h4, hc, hw⟩ := hro
  rw [step_hostWrite_low hlt h4 hc hp, hw]

/-- Settles O10: register by register, `step_hostWrite_low`. -/
theorem hostWriteStoresTheUsedBits : Obligations.HostWriteStoresTheUsedBits := by
  intro s d rest
  refine ⟨fun hp => ?bufBase, fun hp => ?bufCtrl, fun hp => ?bufLen, fun hp => ?nfields, fun hp => ?valLo, fun hp => ?valHi⟩
  all_goals have hstep := step_hostWrite_low (by decide) (by decide) (by decide) hp
  case bufBase => exact ⟨_, hstep, rfl, toNat_bufBaseOf s.params d⟩
  case bufCtrl => rw [hstep, ← BitVec.setWidth_eq_extractLsb' (by decide)]; rfl
  case bufLen => rw [hstep, ← BitVec.setWidth_eq_extractLsb' (by decide)]; rfl
  case nfields => rw [hstep, ← BitVec.setWidth_eq_extractLsb' (by decide)]; rfl
  case valLo => exact ⟨_, hstep, rfl, BitVec.extractLsb'_append_eq_right, BitVec.extractLsb'_append_eq_left⟩
  case valHi => exact ⟨_, hstep, rfl, BitVec.extractLsb'_append_eq_left, BitVec.extractLsb'_append_eq_right⟩

/-- Settles O13: the free value is 24 bits wide. -/
theorem unwrittenDescriptorReadsSomeValue : Obligations.UnwrittenDescriptorReadsSomeValue := by
  intro s i rest _ hp
  refine ⟨_, step_hostRead_dt hp, rfl, ?_⟩
  rw [toNat_regValue_dt]
  exact (dtBits i _).isLt

/-- Settles O20: by `step_command`; the low 32 bits of a command word are the word. -/
theorem stepRunsTheDecodedCommand : Obligations.StepRunsTheDecodedCommand := by
  have hcmd : regAt (regWord 0x008) = .cmd := regAt_regWord_low (by decide) (by decide)
  refine ⟨fun s w i rest hp hd => step_command hp hcmd hd, fun s w i hd => ?_⟩
  have hw : commandWordOf 32 w.toNat = w := by
    rw [commandWordOf, Nat.mod_eq_of_lt w.isLt, BitVec.ofNat_toNat, BitVec.setWidth_eq]
  rw [State.withFetchWord, hw]
  exact step_command (pushCommand_port ..) hcmd hd

/-! ## A register written and read back (R12, R28) -/

/-- R12: a register of the list gives back the used bits of what is written to it. -/
theorem toNat_regValue_writeReg_low {s : State} {off w : Nat} (d : Word)
    (h : (off, w) ∈ [(0x010, s.params.addrW), (0x014, 2), (0x018, 16), (0x01C, 9), (0x020, 32), (0x024, 32)]) :
    (regValue (lowReg off) (writeReg (lowReg off) d s)).toNat = d.toNat % 2 ^ w := by
  have hnarrow {n : Nat} (hn : n ≤ 32) : ((d.setWidth n).setWidth 32).toNat = d.toNat % 2 ^ n := by
    rw [BitVec.toNat_setWidth_of_le hn, BitVec.toNat_setWidth]
  have hwhole : d.toNat = d.toNat % 2 ^ 32 := (Nat.mod_eq_of_lt d.isLt).symm
  simp only [List.mem_cons, Prod.mk.injEq, List.not_mem_nil, or_false] at h
  rcases h with ⟨rfl, rfl⟩ | ⟨rfl, rfl⟩ | ⟨rfl, rfl⟩ | ⟨rfl, rfl⟩ | ⟨rfl, rfl⟩ | ⟨rfl, rfl⟩
  · exact toNat_bufBaseOf s.params d
  · exact hnarrow (by decide)
  · exact hnarrow (by decide)
  · exact hnarrow (by decide)
  · exact (congrArg BitVec.toNat BitVec.extractLsb'_append_eq_right).trans hwhole
  · exact (congrArg BitVec.toNat BitVec.extractLsb'_append_eq_left).trans hwhole

/-- R28: an entry of the descriptor RAM gives back the 24 used bits of what is written to it. -/
theorem toNat_regValue_writeReg_dt (i : BitVec 8) (d : Word) (s : State) :
    (regValue (.dt i) (writeReg (.dt i) d s)).toNat = d.toNat % 2 ^ 24 := by
  rw [toNat_regValue_dt, writeReg, dtBits_of_written (descriptor_setDescriptor_same ..), toNat_descriptorBits_ofWord]

/-- Settles O11: the second step reads what the first has stored, by `step_write_then_read`. -/
theorem writeThenReadReturnsTheUsedBits : Obligations.WriteThenReadReturnsTheUsedBits := by
  intro s d rest off w _ hreg hp
  have hback : regAt (regWord off) ≠ .cmd ∧
      (regValue (regAt (regWord off)) (writeReg (regAt (regWord off)) d
        { s with port := .hostRead (regWord off) :: rest })).toNat = d.toNat % 2 ^ w := by
    rcases hreg with hlow | ⟨rfl, i, rfl⟩
    · have hoff : off < 0x400 ∧ off % 4 = 0 ∧ off ≠ 0x008 := by
        simp only [List.mem_cons, Prod.mk.injEq, List.not_mem_nil, or_false] at hlow
        omega
      obtain ⟨hlt, h4, hc⟩ := hoff
      rw [regAt_regWord_low hlt h4]
      exact ⟨lowReg_ne_cmd hc, toNat_regValue_writeReg_low d hlow⟩
    · rw [regAt_regWord_dt]
      exact ⟨by simp, toNat_regValue_writeReg_dt i d _⟩
  obtain ⟨hcmd, hval⟩ := hback
  obtain ⟨t, u, ht, hu, rfl, hrd⟩ := step_write_then_read hcmd hp
  exact ⟨_, u, ht, hu, by rw [hrd, hval]⟩

end Sys2Proof.Machine
end

section
/-! What the commands change, and what a command abandoned by a reset changes (R32, R33, R82, R143, R162). -/

namespace Sys2Proof.Machine

section Commands

variable {i : Instr} {f : BitVec 8} {s t : State}

/-- R143: an engine command whose validation fails. -/
theorem exec_engine_of_failed {c : Cause} (hi : i = .getf f ∨ i = .setf f) (hv : validate f s = .failed c) :
    exec i s = .next (raiseInvalidArgument c s) := by
  rcases hi with rfl | rfl
  · exact execGetf_eq_next.2 (.inl ⟨c, hv, rfl⟩)
  · exact execSetf_eq_next.2 (.inl ⟨c, hv, rfl⟩)

/-- R31: an engine command whose validation meets an unwritten entry. -/
theorem exec_engine_of_unwritten (hi : i = .getf f ∨ i = .setf f) (hv : validate f s = .unwritten) :
    exec i s = .refused .unwrittenDescriptor := by
  rcases hi with rfl | rfl
  · rw [exec, execGetf, hv]
  · rw [exec, execSetf, hv]

theorem validate_of_no_buffer (h : s.bufv = false) : validate f s = .failed .bufAbsent := by
  simp [validate, h]

theorem execGetf_frame (h : execGetf f s = .next t) :
    t = { s with res := t.res, status := t.status, memLog := t.memLog } := by
  rcases execGetf_eq_next.1 h with ⟨c, -, rfl⟩ | ⟨d, r, s', -, he, rfl⟩
  · rfl
  · rw [extractChunks_frame he]
    rfl

theorem execSetf_frame (h : execSetf f s = .next t) :
    t = { s with status := t.status, mem := t.mem, memLog := t.memLog } := by
  rcases execSetf_eq_next.1 h with ⟨c, -, rfl⟩ | ⟨d, s', -, he, rfl⟩
  · rfl
  · rw [injectChunks_frame he]
    rfl

/-- R82: every command that is not of the engine completes with a result and changes nothing else. -/
theorem exec_adapter_eq (hg : ∀ f, i ≠ .getf f) (hs : ∀ f, i ≠ .setf f) (s : State) :
    ∃ r, exec i s = .next (completeWithResult r s) := by
  cases i with
  | getf f => exact absurd rfl (hg f)
  | setf f => exact absurd rfl (hs f)
  | htobe16 => exact ⟨_, rfl⟩
  | htobe32 => exact ⟨_, rfl⟩
  | htobe64 => exact ⟨_, rfl⟩
  | betoh16 => exact ⟨_, rfl⟩
  | betoh32 => exact ⟨_, rfl⟩
  | betoh64 => exact ⟨_, rfl⟩

theorem eq_completeWithResult_of_exec_adapter (hg : ∀ f, i ≠ .getf f) (hs : ∀ f, i ≠ .setf f) (h : exec i s = .next t) :
    ∃ r, t = completeWithResult r s := by
  obtain ⟨r, hr⟩ := exec_adapter_eq hg hs s
  exact ⟨r, by simpa [hr, eq_comm] using h⟩

/-- Settles O50: the three kinds of command, each by its frame. -/
theorem commandsChangeOnlyTheirState : Obligations.CommandsChangeOnlyTheirState := by
  intro i s t h
  by_cases hg : ∃ f, i = .getf f
  · obtain ⟨f, rfl⟩ := hg
    have hframe := execGetf_frame h
    refine ⟨?_, fun _ => by rw [hframe], by simp, fun hne => absurd rfl (hne f)⟩
    rw [hframe]
  by_cases hs : ∃ f, i = .setf f
  · obtain ⟨f, rfl⟩ := hs
    have hframe := execSetf_frame h
    refine ⟨?_, fun hne => absurd rfl (hne f), fun _ => by rw [hframe], fun _ hne => absurd rfl (hne f)⟩
    rw [hframe]
  · obtain ⟨r, rfl⟩ := eq_completeWithResult_of_exec_adapter (not_exists.1 hg) (not_exists.1 hs) h
    exact ⟨rfl, fun _ => rfl, fun he => absurd he hs, fun _ _ => rfl⟩

/-- R32: what any command leaves unchanged. -/
theorem exec_frame (h : exec i s = .next t) :
    t = { s with res := t.res, status := t.status, mem := t.mem, memLog := t.memLog } := by
  obtain ⟨hframe, -⟩ := commandsChangeOnlyTheirState i s t h
  exact hframe

theorem exec_dt (h : exec i s = .next t) : t.dt = s.dt := by rw [exec_frame h]

theorem exec_params (h : exec i s = .next t) : t.params = s.params := by rw [exec_frame h]

/-- R143: STATUS after a command says that it is completed, or gives the cause for which validation failed. -/
theorem exec_status (h : exec i s = .next t) :
    (∃ rv, t.status = statusOk rv) ∨ ∃ f c, validate f s = .failed c ∧ t.status = statusFailed c := by
  by_cases hg : ∃ f, i = .getf f
  · obtain ⟨f, rfl⟩ := hg
    rcases execGetf_eq_next.1 h with ⟨c, hv, rfl⟩ | ⟨d, r, s', -, -, rfl⟩
    · exact .inr ⟨f, c, hv, rfl⟩
    · exact .inl ⟨true, rfl⟩
  by_cases hs : ∃ f, i = .setf f
  · obtain ⟨f, rfl⟩ := hs
    rcases execSetf_eq_next.1 h with ⟨c, hv, rfl⟩ | ⟨d, s', -, -, rfl⟩
    · exact .inr ⟨f, c, hv, rfl⟩
    · exact .inl ⟨false, rfl⟩
  · obtain ⟨r, rfl⟩ := eq_completeWithResult_of_exec_adapter (not_exists.1 hg) (not_exists.1 hs) h
    exact .inl ⟨true, rfl⟩

end Commands

/-! ## A reset during a command (R162) -/

section Abandon

variable {d : Descriptor} {n : Nat} {s s' : State}

theorem extractPrefix_frame (h : extractPrefix d n s = some s') : s' = { s with memLog := s'.memLog } := by
  unfold extractPrefix at h
  split at h
  · rename_i hx
    cases h
    exact extractChunks_frame hx
  · cases h

theorem loadNext_frame {cs : List Chunk} (h : loadNext cs s = some s') : s' = { s with memLog := s'.memLog } := by
  cases cs with
  | nil => cases h; rfl
  | cons c rest =>
    rw [loadNext] at h
    cases hl : loadWord s c.word with
    | none => simp [hl] at h
    | some p =>
      obtain ⟨w, s1⟩ := p
      obtain ⟨q, -, -, rfl⟩ := loadWord_eq_some.1 hl
      simp only [hl, Option.some.injEq] at h
      rw [← h]
      rfl

theorem injectPrefix_frame (h : injectPrefix d n s = some s') : s' = { s with mem := s'.mem, memLog := s'.memLog } := by
  unfold injectPrefix at h
  split at h
  · rename_i s1 hx
    have hpairs := injectChunks_frame hx
    split_ifs at h
    · rw [loadNext_frame h, hpairs]
    · cases h
      exact hpairs
  · cases h

/-- The accesses made before a reset change memory and its record alone. -/
theorem abandonCommand_frame {i : Option Instr} (h : abandonCommand i n s = .next s') :
    s' = { s with mem := s'.mem, memLog := s'.memLog } := by
  unfold abandonCommand at h
  split at h
  case h_1 =>
    split at h
    · cases h; rfl
    · cases h
    · split at h
      · rename_i hx
        cases h
        rw [extractPrefix_frame hx]
      · cases h
  case h_2 =>
    split at h
    · cases h; rfl
    · cases h
    · split at h
      · rename_i hx
        cases h
        exact injectPrefix_frame hx
      · cases h
  case h_3 => cases h; rfl

/-- Everything a reset during a command can do when it answers a next state. -/
theorem resetDuringCommand_eq_next {w : Word} {t : State} :
    resetDuringCommand w n s = .next t ↔
      ∃ s', abandonCommand (decode w).toOption n s = .next s' ∧ t = resetRegisters s' := by
  unfold resetDuringCommand
  cases abandonCommand (decode w).toOption n s with
  | next s' => simp [eq_comm]
  | fault x => simp
  | refused r => simp

end Abandon

/-! ## The parameters (R33) -/

theorem writeReg_params (r : Reg) (d : Word) (s : State) : (writeReg r d s).params = s.params := by
  cases r <;> rfl

/-- Settles O51: by the transaction that the step performs. -/
theorem noStepChangesTheParameters : Obligations.NoStepChangesTheParameters := by
  intro s t h
  cases hp : s.port with
  | nil =>
    rw [step_idle hp] at h
    cases h
    rfl
  | cons x rest =>
    cases x with
    | hostWrite reg d =>
      by_cases hr : regAt reg = .cmd
      · cases hd : decode d with
        | ok i =>
          rw [step_command hp hr hd] at h
          exact (exec_params h :)
        | error e =>
          rw [step_illegal hp hr hd] at h
          cases h
          rfl
      · rw [step_hostWrite hp hr] at h
        cases h
        exact writeReg_params ..
    | hostRead reg =>
      rw [step_hostRead hp] at h
      cases h
      rfl
    | callerStore addr b =>
      rw [step_callerStore hp] at h
      cases h
      rfl
    | reset =>
      rw [step_reset hp] at h
      cases h
      rfl
    | resetDuring w n =>
      rw [step_resetDuring hp] at h
      obtain ⟨s', hs', rfl⟩ := resetDuringCommand_eq_next.1 h
      rw [resetRegisters_params, abandonCommand_frame hs']

/-! ## Reset, the descriptor RAM, unwritten entries -/

/-- Settles O1: the reset is `step_reset`; without a buffer validation fails at its first check. -/
theorem resetGivesTheResetValues : Obligations.ResetGivesTheResetValues := by
  constructor
  · intro s rest hp
    exact ⟨_, step_reset hp, ⟨rfl, rfl, rfl, rfl, rfl, rfl, rfl, fun _ => rfl⟩, rfl, rfl, rfl, rfl, rfl, rfl⟩
  · intro u f hb
    have hv : validate f u = .failed .bufAbsent := validate_of_no_buffer hb
    exact ⟨exec_engine_of_failed (.inl rfl) hv, exec_engine_of_failed (.inr rfl) hv⟩

/-- Settles O12: one step of each kind at an entry of DT, and `exec_frame` for the commands. -/
theorem descriptorWriteStoresTheFields : Obligations.DescriptorWriteStoresTheFields := by
  refine ⟨fun s i d rest hp => ?write, fun s i e rest he hp => ?read, fun i s t h => exec_dt h⟩
  case write =>
    exact ⟨_, step_hostWrite_dt hp, rfl, descriptor_setDescriptor_same ..,
      fun j hj => descriptor_setDescriptor_other hj ..⟩
  case read =>
    refine ⟨_, step_hostRead_dt hp, ?_, ?_⟩
    · rw [drawsAfterRead_of_written he]
    · rw [toNat_regValue_dt, dtBits_of_written he, toNat_descriptorBits]

/-- Settles O37: validation finds the entry unwritten. -/
theorem unwrittenDescriptorIsRefused : Obligations.UnwrittenDescriptorIsRefused :=
  fun _ _ _ hi hb hn hd => exec_engine_of_unwritten hi (validate_eq_unwritten.2 ⟨hb, hn, hd⟩)

end Sys2Proof.Machine
end

section
/-! R21, R147: BUF_LEN with LENCHK = 0. A change of the state that the engine's operations neither see nor undo commutes with
the commands; setting BUF_LEN is one. -/

namespace Sys2Proof.Machine

/-! ## Changes of the state that the engine does not see -/

/-- The same outcome, its next state changed by `g`. -/
def mapNext (g : State → State) : Host.Outcome State Fault Refusal → Host.Outcome State Fault Refusal
  | .next t => .next (g t)
  | .fault x => .fault x
  | .refused r => .refused r

/-- The memory port's reads do not see the change `g`, and the engine's updates commute with it. -/
structure EngineBlind (g : State → State) : Prop where
  wordAddr_eq : ∀ s j, wordAddr (g s) j = wordAddr s j
  quadAt_eq : ∀ s a, quadAt (g s) a = quadAt s a
  logEvent_comm : ∀ e s, logEvent e (g s) = g (logEvent e s)
  setQuad_comm : ∀ a q s, setQuad a q (g s) = g (setQuad a q s)
  raise_comm : ∀ c s, raiseInvalidArgument c (g s) = g (raiseInvalidArgument c s)
  result_comm : ∀ r s, completeWithResult r (g s) = g (completeWithResult r s)
  noResult_comm : ∀ s, completeWithoutResult (g s) = g (completeWithoutResult s)

/-- R106: LoadWord as a function of the four bytes. -/
theorem loadWord_eq_map (s : State) (j : Nat) :
    loadWord s j = (quadAt s (wordAddr s j)).map fun q => (be32 q, logEvent (.read (wordAddr s j) q) s) := by
  unfold loadWord memRead
  cases quadAt s (wordAddr s j) <;> simp

/-- R107: StoreWord, admitted where the four bytes are the caller's. -/
theorem storeWord_eq_map (s : State) (j : Nat) (w : Word) :
    storeWord s j w = (quadAt s (wordAddr s j)).map fun _ =>
      logEvent (.write (wordAddr s j) (bytesBe32 w)) (setQuad (wordAddr s j) (bytesBe32 w) s) := by
  unfold storeWord memWrite
  cases quadAt s (wordAddr s j) <;> simp

namespace EngineBlind

variable {g : State → State} (hg : EngineBlind g)
include hg

theorem loadWord (s : State) (j : Nat) :
    Machine.loadWord (g s) j = (Machine.loadWord s j).map (Prod.map id g) := by
  simp only [loadWord_eq_map, hg.wordAddr_eq, hg.quadAt_eq, hg.logEvent_comm, Option.map_map]
  rfl

theorem storeWord (s : State) (j : Nat) (w : Word) : Machine.storeWord (g s) j w = (Machine.storeWord s j w).map g := by
  simp only [storeWord_eq_map, hg.wordAddr_eq, hg.quadAt_eq, hg.setQuad_comm, hg.logEvent_comm, Option.map_map]
  rfl

theorem extractChunks (cs : List Chunk) (r : Value) (s : State) :
    Machine.extractChunks cs r (g s) = (Machine.extractChunks cs r s).map (Prod.map id g) := by
  induction cs generalizing r s with
  | nil => rfl
  | cons c rest ih =>
    rw [Machine.extractChunks, Machine.extractChunks, hg.loadWord]
    cases Machine.loadWord s c.word with
    | none => rfl
    | some p => exact ih _ p.2

theorem injectChunks (v : Value) (cs : List Chunk) (s : State) :
    Machine.injectChunks v cs (g s) = (Machine.injectChunks v cs s).map g := by
  induction cs generalizing s with
  | nil => rfl
  | cons c rest ih =>
    rw [Machine.injectChunks, Machine.injectChunks, hg.loadWord]
    cases Machine.loadWord s c.word with
    | none => rfl
    | some p =>
      simp only [Option.map_some, Prod.map, id_eq, hg.storeWord]
      cases Machine.storeWord p.2 c.word (mergeChunk c v p.1) with
      | none => rfl
      | some s' => exact ih s'

variable {f : BitVec 8} {s : State}

/-- GETF commutes with a change that neither it nor its validation sees. -/
theorem execGetf (hv : validate f (g s) = validate f s) :
    Machine.execGetf f (g s) = mapNext g (Machine.execGetf f s) := by
  unfold Machine.execGetf
  rw [hv]
  cases validate f s with
  | failed c => exact congrArg Host.Outcome.next (hg.raise_comm c s)
  | unwritten => rfl
  | passed d =>
    simp only [extractField, hg.extractChunks]
    cases Machine.extractChunks d.chunks 0 s with
    | none => rfl
    | some p => exact congrArg Host.Outcome.next (hg.result_comm p.1 p.2)

/-- SETF commutes with a change that neither it nor its validation sees and that leaves it the same value to store. -/
theorem execSetf (hv : validate f (g s) = validate f s)
    (hval : ∀ d, validate f s = .passed d →
      fieldValue d.bitWidth.toNat (g s).val = fieldValue d.bitWidth.toNat s.val) :
    Machine.execSetf f (g s) = mapNext g (Machine.execSetf f s) := by
  unfold Machine.execSetf
  rw [hv]
  cases hd : validate f s with
  | failed c => exact congrArg Host.Outcome.next (hg.raise_comm c s)
  | unwritten => rfl
  | passed d =>
    simp only [injectField, hval d hd, hg.injectChunks]
    cases Machine.injectChunks (fieldValue d.bitWidth.toNat s.val) d.chunks s with
    | none => rfl
    | some s' => exact congrArg Host.Outcome.next (hg.noResult_comm s')

end EngineBlind

/-! ## BUF_LEN -/

/-- The same state with another BUF_LEN. -/
def State.withBufLen (len : BitVec 16) (s : State) : State := { s with bufLen := len }

theorem engineBlind_withBufLen (len : BitVec 16) : EngineBlind (State.withBufLen len) where
  wordAddr_eq _ _ := rfl
  quadAt_eq _ _ := rfl
  logEvent_comm _ _ := rfl
  setQuad_comm _ _ _ := rfl
  raise_comm _ _ := rfl
  result_comm _ _ := rfl
  noResult_comm _ := rfl

section Lenchk

variable {s : State} (hl : s.lenchk = false)
include hl

/-- R102 with the length check off: the descriptor's own check is the only one left. -/
theorem validateDescriptor_of_lenchk_off (d : Descriptor) :
    validateDescriptor d s = if !d.valid then .failed .badDescriptor else .passed d := by
  simp [validateDescriptor, hl]

theorem validate_withBufLen (f : BitVec 8) (len : BitVec 16) : validate f (s.withBufLen len) = validate f s := by
  have hl' : (s.withBufLen len).lenchk = false := hl
  simp only [validate, validateDescriptor_of_lenchk_off hl, validateDescriptor_of_lenchk_off hl']
  rfl

/-- R147: the length check is not made, so it does not fail. -/
theorem validate_ne_length (f : BitVec 8) : validate f s ≠ .failed .length := by
  unfold validate
  simp only [validateDescriptor_of_lenchk_off hl]
  split_ifs
  · simp
  · simp
  · split
    · simp
    · split_ifs <;> simp

/-- R21: changing BUF_LEN before a command or after it is the same. -/
theorem exec_withBufLen (i : Instr) (len : BitVec 16) :
    exec i (s.withBufLen len) = mapNext (State.withBufLen len) (exec i s) := by
  have hg := engineBlind_withBufLen len
  cases i with
  | getf f => exact hg.execGetf (validate_withBufLen hl f len)
  | setf f => exact hg.execSetf (validate_withBufLen hl f len) fun _ _ => rfl
  | htobe16 => rfl
  | htobe32 => rfl
  | htobe64 => rfl
  | betoh16 => rfl
  | betoh32 => rfl
  | betoh64 => rfl

end Lenchk

theorem statusCause_statusOk (rv : Bool) : statusCause (statusOk rv) = 0 := by
  cases rv <;> rfl

theorem statusCause_statusFailed (c : Cause) : statusCause (statusFailed c) = causeCode c := by
  cases c <;> rfl

theorem causeCode_eq_four {c : Cause} : causeCode c = 4 ↔ c = .length := by
  cases c <;> decide

/-- Settles O35: `exec_withBufLen` for each kind of answer; a failure takes its cause from validation, which is not LENGTH. -/
theorem bufLenHasNoEffectWithoutLenchk : Obligations.BufLenHasNoEffectWithoutLenchk := by
  intro s i len hl
  have hexec := exec_withBufLen hl i len
  constructor
  · intro t ht
    rw [ht] at hexec
    refine ⟨hexec, ?_⟩
    rcases exec_status ht with ⟨rv, hst⟩ | ⟨f, c, hv, hst⟩
    · simp [hst, statusCause_statusOk]
    · rw [hst, statusCause_statusFailed, ne_eq, causeCode_eq_four]
      rintro rfl
      exact validate_ne_length hl f hv
  · intro r hr
    rw [hr] at hexec
    exact hexec

end Sys2Proof.Machine
end

section
/-! R44, R45, R50 to R53, R173: the words an engine command touches, when they are the caller's, and the accesses the command
makes of them. Each loop is described once by the word numbers of its chunks; a valid descriptor's chunks have the numbers
`wi, wi + 1, ...` (R104, R105). -/

namespace Sys2Proof.Machine

/-! ## The words of a field (R104, R105) -/

/-- From the second chunk on, the chunks are the following words, one for each 32 bits that are left. -/
theorem map_word_chunksFrom_succ (wi bo bw k : Nat) {fuel p : Nat} (h : bw - p ≤ 32 * fuel) :
    (chunksFrom wi bo bw fuel (k + 1) p).map Chunk.word = List.range' (wi + (k + 1)) ((bw - p + 31) / 32) := by
  induction fuel generalizing k p with
  | zero =>
    have hn : (bw - p + 31) / 32 = 0 := by omega
    rw [hn]
    rfl
  | succ fuel ih =>
    rw [chunksFrom]
    have hwidth : (chunkAt wi bo bw (k + 1) p).width = min 32 (bw - p) := rfl
    split
    · rename_i hp
      have hn : (bw - p + 31) / 32 = (bw - (p + min 32 (bw - p)) + 31) / 32 + 1 := by omega
      rw [List.map_cons, hwidth, ih (k + 1) (by omega), hn, List.range'_succ]
      rfl
    · have hn : (bw - p + 31) / 32 = 0 := by omega
      rw [hn]
      rfl

/-- The words of a valid descriptor's chunks: the `nwords` words from `wi` on, in order. -/
theorem map_word_chunks {d : Descriptor} (hv : d.valid = true) :
    d.chunks.map Chunk.word = (List.range d.nwords).map (d.wordIndex.toNat + ·) := by
  obtain ⟨hw, ho⟩ := valid_iff.1 hv
  rw [← List.range'_eq_map_range, Descriptor.chunks, Descriptor.nwords, nwords, chunksFrom]
  have hwidth : (chunkAt d.wordIndex.toNat d.bitOffset.toNat d.bitWidth.toNat 0 0).width =
      min (32 - d.bitOffset.toNat) d.bitWidth.toNat := rfl
  generalize d.wordIndex.toNat = wi at *
  generalize d.bitOffset.toNat = bo at *
  generalize d.bitWidth.toNat = bw at *
  split
  · have hn : (bo + bw + 31) / 32 = (bw - (0 + min (32 - bo) bw) + 31) / 32 + 1 := by omega
    rw [List.map_cons, hwidth, map_word_chunksFrom_succ _ _ _ _ (by omega), if_neg (by omega), hn, List.range'_succ]
    rfl
  · rw [if_pos (by omega)]
    rfl

/-- What holds of the word of every chunk holds of the words of the field. -/
theorem forall_chunks_iff {d : Descriptor} (hv : d.valid = true) (P : Nat → Prop) :
    (∀ c ∈ d.chunks, P c.word) ↔ ∀ k < d.nwords, P (d.wordIndex.toNat + k) := by
  rw [← List.forall_mem_map (f := Chunk.word), map_word_chunks hv, List.forall_mem_map]
  simp only [List.mem_range]

/-- A valid field touches three words at most. -/
theorem nwords_le_three {d : Descriptor} (hv : d.valid = true) : d.nwords ≤ 3 := by
  obtain ⟨hw, ho⟩ := valid_iff.1 hv
  rw [Descriptor.nwords, nwords]
  split <;> omega

theorem Accepts.valid {s : State} {f : BitVec 8} {d : Descriptor} (h : Accepts s f d) : d.valid = true := by
  obtain ⟨-, -, -, hw, ho, -⟩ := h
  exact valid_iff.2 ⟨hw, ho⟩

/-! ## Storage the caller owns (R50, R52) -/

/-- A word can be read where each of its four bytes is the caller's. -/
theorem isSome_quadAt_iff {s : State} {a : Nat} :
    (quadAt s a).isSome = true ↔ ∀ b < 4, (s.byteAt (wrapAddr s (a + b))).isSome = true := by
  rw [Option.isSome_iff_exists]
  constructor
  · rintro ⟨q, hq⟩ b hb
    obtain ⟨h0, h1, h2, h3⟩ := quadAt_eq_some.1 hq
    interval_cases b <;> simp [*]
  · intro h
    obtain ⟨b0, h0⟩ := Option.isSome_iff_exists.1 (h 0 (by omega))
    obtain ⟨b1, h1⟩ := Option.isSome_iff_exists.1 (h 1 (by omega))
    obtain ⟨b2, h2⟩ := Option.isSome_iff_exists.1 (h 2 (by omega))
    obtain ⟨b3, h3⟩ := Option.isSome_iff_exists.1 (h 3 (by omega))
    exact ⟨⟨b0, b1, b2, b3⟩, quadAt_eq_some.2 ⟨h0, h1, h2, h3⟩⟩

theorem ownsField_iff_chunks {s : State} {d : Descriptor} (hv : d.valid = true) :
    OwnsField s d ↔ ∀ c ∈ d.chunks, (quadAt s (wordAddr s c.word)).isSome = true := by
  rw [forall_chunks_iff hv fun j => (quadAt s (wordAddr s j)).isSome = true]
  simp only [OwnsField, isSome_quadAt_iff]

/-- One round of SETF's loop keeps the set of words that can be read. -/
theorem isSome_quadAt_injectOne {v : Value} {c : Chunk} {q : Quad} {s : State}
    (hq : quadAt s (wordAddr s c.word) = some q) (a : Nat) :
    (quadAt (injectOne v c q s) a).isSome = (quadAt s a).isSome := by
  rw [Bool.eq_iff_iff, isSome_quadAt_iff, isSome_quadAt_iff]
  simp only [wrapAddr_injectOne, isSome_byteAt_injectOne hq]

/-- The loop of GETF completes exactly where every chunk's word can be read. -/
theorem isSome_extractChunks_iff {cs : List Chunk} {r : Value} {s : State} :
    (extractChunks cs r s).isSome = true ↔ ∀ c ∈ cs, (quadAt s (wordAddr s c.word)).isSome = true := by
  induction cs generalizing r s with
  | nil => simp
  | cons c rest ih =>
    rw [extractChunks, loadWord_eq_map, List.forall_mem_cons]
    cases hq : quadAt s (wordAddr s c.word) with
    | none => simp
    | some q => simpa using ih (s := logEvent (.read (wordAddr s c.word) q) s)

/-- The loop of SETF completes exactly where every chunk's word can be read. -/
theorem isSome_injectChunks_iff {v : Value} {cs : List Chunk} {s : State} :
    (injectChunks v cs s).isSome = true ↔ ∀ c ∈ cs, (quadAt s (wordAddr s c.word)).isSome = true := by
  induction cs generalizing s with
  | nil => simp
  | cons c rest ih =>
    rw [List.forall_mem_cons, Option.isSome_iff_exists]
    simp only [injectChunks_cons_eq_some]
    cases hq : quadAt s (wordAddr s c.word) with
    | none => simp
    | some q =>
      have ih' := ih (s := injectOne v c q s)
      simp only [wordAddr_injectOne, isSome_quadAt_injectOne hq, Option.isSome_iff_exists] at ih'
      simpa [Option.isSome_iff_exists] using ih'

section Command

variable {s t : State} {f : BitVec 8} {d : Descriptor} {i : Instr}

theorem isSome_extractField_iff (hv : d.valid = true) : (extractField d s).isSome = true ↔ OwnsField s d := by
  rw [extractField, isSome_extractChunks_iff, ownsField_iff_chunks hv]

theorem isSome_injectField_iff (hv : d.valid = true) : (injectField d s).isSome = true ↔ OwnsField s d := by
  rw [injectField, isSome_injectChunks_iff, ownsField_iff_chunks hv]

/-- R50: an accepted command is refused where a byte of a touched word is not the caller's. -/
theorem exec_engine_of_not_owns (hi : i = .getf f ∨ i = .setf f) (ha : Accepts s f d) (ho : ¬ OwnsField s d) :
    exec i s = .refused .outsideStorage := by
  have hpass := validate_eq_passed.2 ha
  rcases hi with rfl | rfl
  · rw [← isSome_extractField_iff ha.valid, Option.not_isSome_iff_eq_none] at ho
    simp only [exec, execGetf, hpass, ho]
  · rw [← isSome_injectField_iff ha.valid, Option.not_isSome_iff_eq_none] at ho
    simp only [exec, execSetf, hpass, ho]

/-- R52: an accepted command completes where every byte of the touched words is the caller's. -/
theorem exec_engine_of_owns (hi : i = .getf f ∨ i = .setf f) (ha : Accepts s f d) (ho : OwnsField s d) :
    ∃ t, exec i s = .next t := by
  have hpass := validate_eq_passed.2 ha
  rcases hi with rfl | rfl
  · obtain ⟨⟨r, s'⟩, hx⟩ := Option.isSome_iff_exists.1 ((isSome_extractField_iff ha.valid).2 ho)
    exact ⟨_, execGetf_eq_next.2 (.inr ⟨d, r, s', hpass, hx, rfl⟩)⟩
  · obtain ⟨s', hx⟩ := Option.isSome_iff_exists.1 ((isSome_injectField_iff ha.valid).2 ho)
    exact ⟨_, execSetf_eq_next.2 (.inr ⟨d, s', hpass, hx, rfl⟩)⟩

/-- Settles O38: the loop of the command completes only where the caller owns the field. -/
theorem accessOutsideTheStorageIsRefused : Obligations.AccessOutsideTheStorageIsRefused :=
  fun _ _ _ _ hi ha ho => exec_engine_of_not_owns hi ha ho

end Command

/-! ## The accesses, in order (R44, R45, R53) -/

section Accesses

variable {s s' t : State} {f : BitVec 8} {d : Descriptor}

/-- What GETF does to buffer word `j`: it reads it. -/
def readAccesses (s : State) (j : Nat) : List (Bool × Nat) := [(false, wordAddr s j)]

/-- What SETF does to buffer word `j`: it reads it, then writes it. -/
def readWriteAccesses (s : State) (j : Nat) : List (Bool × Nat) := [(false, wordAddr s j), (true, wordAddr s j)]

/-- The loop of GETF reads each chunk's word. -/
theorem extractChunks_accesses {cs : List Chunk} {r r' : Value} (h : extractChunks cs r s = some (r', s')) :
    ∃ l, s'.memLog = s.memLog ++ l ∧ l.map MemEvent.access = (cs.map Chunk.word).flatMap (readAccesses s) := by
  induction cs generalizing r s with
  | nil =>
    cases h
    exact ⟨[], by simp⟩
  | cons c rest ih =>
    obtain ⟨q, -, h⟩ := extractChunks_cons_eq_some.1 h
    obtain ⟨l, hlog, hacc⟩ := ih h
    refine ⟨.read (wordAddr s c.word) q :: l, by simp [hlog], ?_⟩
    rw [List.map_cons, hacc]
    rfl

/-- The loop of SETF reads and writes each chunk's word. -/
theorem injectChunks_accesses {v : Value} {cs : List Chunk} (h : injectChunks v cs s = some s') :
    ∃ l, s'.memLog = s.memLog ++ l ∧ l.map MemEvent.access = (cs.map Chunk.word).flatMap (readWriteAccesses s) := by
  induction cs generalizing s with
  | nil =>
    cases h
    exact ⟨[], by simp⟩
  | cons c rest ih =>
    obtain ⟨q, -, h⟩ := injectChunks_cons_eq_some.1 h
    obtain ⟨l, hlog, hacc⟩ := ih h
    have hw : readWriteAccesses (injectOne v c q s) = readWriteAccesses s :=
      funext fun j => by simp only [readWriteAccesses, wordAddr_injectOne]
    refine ⟨.read (wordAddr s c.word) q ::
      .write (wordAddr s c.word) (bytesBe32 (mergeChunk c v (be32 q))) :: l, by simp [hlog], ?_⟩
    rw [List.map_cons, List.map_cons, hacc, hw]
    rfl

theorem getf_accesses (ha : Accepts s f d) (h : exec (.getf f) s = .next t) :
    ∃ l, t.memLog = s.memLog ++ l ∧
      l.map MemEvent.access = (List.range d.nwords).flatMap fun k => readAccesses s (d.wordIndex.toNat + k) := by
  have hpass := validate_eq_passed.2 ha
  rcases execGetf_eq_next.1 h with ⟨c, hv, -⟩ | ⟨e, r, s', hv, hx, rfl⟩
  · simp [hpass] at hv
  · cases hpass.symm.trans hv
    rw [completeWithResult_memLog, ← List.flatMap_map (d.wordIndex.toNat + ·), ← map_word_chunks ha.valid]
    exact extractChunks_accesses hx

theorem setf_accesses (ha : Accepts s f d) (h : exec (.setf f) s = .next t) :
    ∃ l, t.memLog = s.memLog ++ l ∧
      l.map MemEvent.access = (List.range d.nwords).flatMap fun k => readWriteAccesses s (d.wordIndex.toNat + k) := by
  have hpass := validate_eq_passed.2 ha
  rcases execSetf_eq_next.1 h with ⟨c, hv, -⟩ | ⟨e, s', hv, hx, rfl⟩
  · simp [hpass] at hv
  · cases hpass.symm.trans hv
    rw [completeWithoutResult_memLog, ← List.flatMap_map (d.wordIndex.toNat + ·), ← map_word_chunks ha.valid]
    exact injectChunks_accesses hx

/-- Settles O44: both commands complete, and their accesses are `getf_accesses` and `setf_accesses`. -/
theorem engineAccessesInOrder : Obligations.EngineAccessesInOrder := by
  intro s f d ha ho
  constructor
  · obtain ⟨t, ht⟩ := exec_engine_of_owns (.inl rfl) ha ho
    obtain ⟨l, hlog, hacc⟩ := getf_accesses ha ht
    exact ⟨t, l, ht, hlog, by rw [hacc, List.map_eq_flatMap]; rfl⟩
  · obtain ⟨t, ht⟩ := exec_engine_of_owns (.inr rfl) ha ho
    obtain ⟨l, hlog, hacc⟩ := setf_accesses ha ht
    exact ⟨t, l, ht, hlog, hacc⟩

end Accesses

/-! ## How far the accesses reach (R45, R51, R173) -/

section Reach

variable {s t : State} {f : BitVec 8} {d : Descriptor} {i : Instr}

/-- Where every word of `n` is accessed at most twice and at its own address, there are at most `2 * n` accesses, each at
the address of one of these words. -/
theorem accesses_bounded {l : List MemEvent} {g : Nat → List (Bool × Nat)} {wi n : Nat}
    (hacc : l.map MemEvent.access = (List.range n).flatMap fun k => g (wi + k))
    (hlen : ∀ j, (g j).length ≤ 2) (haddr : ∀ j, ∀ p ∈ g j, p.2 = wordAddr s j) :
    l.length ≤ 2 * n ∧ ∀ e ∈ l, ∃ k < n, e.access.2 = wordAddr s (wi + k) := by
  constructor
  · calc l.length = (l.map MemEvent.access).length := (List.length_map ..).symm
      _ = ((List.range n).map fun k => (g (wi + k)).length).sum := by rw [hacc, List.length_flatMap]
      _ ≤ ((List.range n).map fun k => (g (wi + k)).length).length • 2 :=
        List.sum_le_card_nsmul _ _ (List.forall_mem_map.2 fun k _ => hlen _)
      _ = 2 * n := by rw [List.length_map, List.length_range, smul_eq_mul, Nat.mul_comm]
  · intro e he
    have hmem : e.access ∈ (List.range n).flatMap fun k => g (wi + k) := hacc ▸ List.mem_map_of_mem he
    obtain ⟨k, hk, hp⟩ := List.mem_flatMap.1 hmem
    exact ⟨k, List.mem_range.1 hk, haddr _ _ hp⟩

theorem length_readAccesses_le (j : Nat) : (readAccesses s j).length ≤ 2 := by simp [readAccesses]

theorem length_readWriteAccesses_le (j : Nat) : (readWriteAccesses s j).length ≤ 2 := by simp [readWriteAccesses]

theorem snd_of_mem_readAccesses (j : Nat) : ∀ p ∈ readAccesses s j, p.2 = wordAddr s j := by simp [readAccesses]

theorem snd_of_mem_readWriteAccesses (j : Nat) : ∀ p ∈ readWriteAccesses s j, p.2 = wordAddr s j := by
  simp [readWriteAccesses]

/-- R53, R173: a command makes no access, or at most two of each word of a field it accepts. -/
theorem exec_accesses (h : exec i s = .next t) :
    t.memLog = s.memLog ∨ ∃ f d l, Accepts s f d ∧ t.memLog = s.memLog ++ l ∧ l.length ≤ 2 * d.nwords ∧
      ∀ e ∈ l, ∃ k < d.nwords, e.access.2 = wordAddr s (d.wordIndex.toNat + k) := by
  by_cases hg : ∃ f, i = .getf f
  · obtain ⟨f, rfl⟩ := hg
    rcases execGetf_eq_next.1 h with ⟨c, -, rfl⟩ | ⟨d, -, -, hv, -, -⟩
    · exact .inl rfl
    · have ha := validate_eq_passed.1 hv
      obtain ⟨l, hlog, hacc⟩ := getf_accesses ha h
      exact .inr ⟨f, d, l, ha, hlog, accesses_bounded hacc length_readAccesses_le snd_of_mem_readAccesses⟩
  by_cases hs : ∃ f, i = .setf f
  · obtain ⟨f, rfl⟩ := hs
    rcases execSetf_eq_next.1 h with ⟨c, -, rfl⟩ | ⟨d, -, hv, -, -⟩
    · exact .inl rfl
    · have ha := validate_eq_passed.1 hv
      obtain ⟨l, hlog, hacc⟩ := setf_accesses ha h
      exact .inr ⟨f, d, l, ha, hlog, accesses_bounded hacc length_readWriteAccesses_le snd_of_mem_readWriteAccesses⟩
  · obtain ⟨r, rfl⟩ := eq_completeWithResult_of_exec_adapter (not_exists.1 hg) (not_exists.1 hs) h
    exact .inl rfl

/-- R45, R51: where the words of an accepted field lie. -/
theorem Accepts.word_reach (ha : Accepts s f d) {k : Nat} (hk : k < d.nwords) :
    d.wordIndex.toNat + k ≤ 257 ∧
      (s.bufCtrl.getLsbD 1 = true → 4 * (d.wordIndex.toNat + k) + 3 < s.bufLen.toNat) := by
  have h3 := nwords_le_three ha.valid
  obtain ⟨-, -, -, -, -, hlen⟩ := ha
  refine ⟨by omega, fun hc => ?_⟩
  have := hlen hc (by omega)
  omega

/-- Settles O45: at most three words of two accesses each, which `Accepts.word_reach` bounds. -/
theorem engineReachIsBounded : Obligations.EngineReachIsBounded := by
  intro s t i h
  rcases exec_accesses h with hlog | ⟨f, d, l, ha, hlog, hlen, hword⟩
  · exact ⟨[], by simp [hlog]⟩
  · have h3 := nwords_le_three ha.valid
    refine ⟨l, hlog, by omega, fun e he => ?_⟩
    obtain ⟨k, hk, hacc⟩ := hword e he
    obtain ⟨hj, hbytes⟩ := ha.word_reach hk
    exact ⟨_, hj, hacc, hbytes⟩

end Reach

/-! ## The caller's own store (R40) -/

/-- Settles O14: the step stores the byte, and `byteAt_setByte` says what that does at every address. -/
theorem callerStoreWritesOneByte : Obligations.CallerStoreWritesOneByte := by
  intro s addr v rest hp
  refine ⟨_, step_callerStore hp, rfl, ?_, fun a ha => ?_⟩
  · rw [byteAt_setByte]
    exact if_pos rfl
  · rw [byteAt_setByte]
    exact if_neg ha

end Sys2Proof.Machine
end

section
/-! The command word (R60 to R65): its four fields determine it, and `decode` answers an instruction exactly on that
instruction's word. -/

namespace Sys2Proof

/-! ## The four fields of a command word (R60) -/

section Fields

variable {v w : Word} (z1 : BitVec 16) (fidx : BitVec 8) (z0 op : BitVec 4)

@[simp] theorem fieldOp_append : fieldOp (z1 ++ fidx ++ z0 ++ op) = op :=
  BitVec.extractLsb'_append_eq_right

@[simp] theorem fieldZ0_append : fieldZ0 (z1 ++ fidx ++ z0 ++ op) = z0 :=
  (BitVec.extractLsb'_append_eq_of_le (by decide)).trans BitVec.extractLsb'_append_eq_right

@[simp] theorem fieldFidx_append : fieldFidx (z1 ++ fidx ++ z0 ++ op) = fidx :=
  (BitVec.extractLsb'_append_eq_of_le (by decide)).trans <|
    (BitVec.extractLsb'_append_eq_of_le (by decide)).trans BitVec.extractLsb'_append_eq_right

@[simp] theorem fieldZ1_append : fieldZ1 (z1 ++ fidx ++ z0 ++ op) = z1 :=
  (BitVec.extractLsb'_append_eq_of_le (by decide)).trans <|
    (BitVec.extractLsb'_append_eq_of_le (by decide)).trans BitVec.extractLsb'_append_eq_left

theorem append_fields (w : Word) : fieldZ1 w ++ fieldFidx w ++ fieldZ0 w ++ fieldOp w = w := by
  rw [fieldZ1, fieldFidx, fieldZ0, fieldOp, BitVec.extractLsb'_append_extractLsb'_eq_extractLsb' (rfl : 16 = 8 + 8),
    BitVec.extractLsb'_append_extractLsb'_eq_extractLsb' (rfl : 8 = 4 + 4),
    BitVec.extractLsb'_append_extractLsb'_eq_extractLsb' (rfl : 4 = 0 + 4)]
  exact BitVec.extractLsb'_eq_self

theorem word_eq_iff_fields :
    v = w ↔ fieldZ1 v = fieldZ1 w ∧ fieldFidx v = fieldFidx w ∧ fieldZ0 v = fieldZ0 w ∧ fieldOp v = fieldOp w := by
  constructor
  · rintro rfl
    exact ⟨rfl, rfl, rfl, rfl⟩
  · rintro ⟨hz1, hfidx, hz0, hop⟩
    rw [← append_fields v, hz1, hfidx, hz0, hop, append_fields]

/-- R60: a word is an instruction's word by its fields. -/
theorem eq_encode_iff {i : Instr} :
    w = encode i ↔ fieldZ1 w = 0 ∧ fieldFidx w = fidxOf i ∧ fieldZ0 w = 0 ∧ fieldOp w = opOf i := by
  rw [word_eq_iff_fields, encode, fieldZ1_append, fieldFidx_append, fieldZ0_append, fieldOp_append]

end Fields

/-! ## What decodes (R62, R64, R65) -/

section Decode

variable {w : Word} {i : Instr}

theorem withoutFidx_eq_ok_iff {j : Instr} : withoutFidx w j = .ok i ↔ fieldFidx w = 0 ∧ j = i := by
  rw [withoutFidx]
  split <;> simp_all

/-- R62: the opcode map answers the instruction whose index and operation code the word holds. -/
theorem decodeOp_eq_ok_iff : decodeOp w = .ok i ↔ fieldFidx w = fidxOf i ∧ fieldOp w = opOf i := by
  constructor
  · intro h
    unfold decodeOp at h
    split at h
    case h_1 hop => cases h; exact ⟨rfl, BitVec.eq_of_toNat_eq hop⟩
    case h_2 hop => cases h; exact ⟨rfl, BitVec.eq_of_toNat_eq hop⟩
    case h_9 => cases h
    all_goals
      obtain ⟨hfidx, rfl⟩ := withoutFidx_eq_ok_iff.mp h
      exact ⟨hfidx, BitVec.eq_of_toNat_eq ‹_›⟩
  · rintro ⟨hfidx, hop⟩
    cases i <;> simp [decodeOp, hop, opOf, withoutFidx_eq_ok_iff, hfidx, fidxOf]

/-- R65: a word decodes to an instruction exactly when it is that instruction's word. -/
theorem decode_eq_ok_iff : decode w = .ok i ↔ w = encode i := by
  rw [eq_encode_iff, decode]
  by_cases hz1 : fieldZ1 w = 0
  · by_cases hz0 : fieldZ0 w = 0
    · simp [hz1, hz0, decodeOp_eq_ok_iff]
    · simp_all
  · simp_all

theorem decode_encode (i : Instr) : decode (encode i) = .ok i := decode_eq_ok_iff.mpr rfl

theorem encode_injective : Function.Injective encode := by
  intro i j h
  have hi := decode_encode i
  rw [h, decode_encode] at hi
  exact (Except.ok.inj hi).symm

/-! ## The rows of the opcode map (R62) -/

/-- The mask of GETF and SETF compares every field but the index. -/
theorem and_engineMask_eq_iff {x : Word} (hfidx : fieldFidx w = fidxOf i) (hx : encode i &&& 0xFFFF00FF = x) :
    w &&& 0xFFFF00FF = x ↔ decode w = .ok i := by
  have hz1 (v : Word) : fieldZ1 (v &&& 0xFFFF00FF) = fieldZ1 v := BitVec.extractLsb'_and.trans BitVec.and_allOnes
  have hf (v : Word) : fieldFidx (v &&& 0xFFFF00FF) = 0 := BitVec.extractLsb'_and.trans BitVec.and_zero
  have hz0 (v : Word) : fieldZ0 (v &&& 0xFFFF00FF) = fieldZ0 v := BitVec.extractLsb'_and.trans BitVec.and_allOnes
  have hop (v : Word) : fieldOp (v &&& 0xFFFF00FF) = fieldOp v := BitVec.extractLsb'_and.trans BitVec.and_allOnes
  have hi : fieldFidx w = fieldFidx (encode i) := hfidx.trans (fieldFidx_append ..).symm
  rw [← hx, decode_eq_ok_iff, word_eq_iff_fields, word_eq_iff_fields (v := w)]
  simp only [hz1, hf, hz0, hop, hi]

/-- The mask of the adapter's commands compares the whole word. -/
theorem and_adapterMask_eq_encode_iff : w &&& 0xFFFFFFFF = encode i ↔ decode w = .ok i := by
  have hw : w &&& 0xFFFFFFFF = w := BitVec.and_allOnes
  rw [hw, decode_eq_ok_iff]

/-! ## The illegal words (R64) -/

/-- The operation codes that R64 lists as reserved. -/
abbrev reservedOps : List (BitVec 4) := [0x0, 0x3, 0x4, 0x5, 0x6, 0x7, 0xB, 0xF]

/-- The conditions of R64 on the fields of a word. -/
abbrev IllegalFields (w : Word) : Prop :=
  fieldOp w ∈ reservedOps ∨ fieldZ0 w ≠ 0 ∨ fieldZ1 w ≠ 0 ∨ (w.getLsbD 3 = true ∧ fieldFidx w ≠ 0)

/-- R62: an operation code that is not reserved is one of the engine's two, or has bit 3 set and is one of the
adapter's six. -/
theorem op_of_not_mem_reservedOps : ∀ op : BitVec 4, op ∉ reservedOps →
    op = 0x1 ∨ op = 0x2 ∨ op.getLsbD 3 = true ∧
      ∃ i ∈ [Instr.htobe16, .htobe32, .htobe64, .betoh16, .betoh32, .betoh64], fidxOf i = 0 ∧ op = opOf i := by
  decide

/-- The operation codes and indices of instructions: no reserved code, and with a code of the adapter only the index 0. -/
theorem exists_instr_iff {op : BitVec 4} {fidx : BitVec 8} :
    (∃ i, fidx = fidxOf i ∧ op = opOf i) ↔ op ∉ reservedOps ∧ (op.getLsbD 3 = true → fidx = 0) := by
  constructor
  · rintro ⟨i, rfl, rfl⟩
    cases i <;> simp [opOf, fidxOf]
  · rintro ⟨hop, hfidx⟩
    rcases op_of_not_mem_reservedOps op hop with rfl | rfl | ⟨hbit, i, -, hi, rfl⟩
    · exact ⟨.getf fidx, rfl, rfl⟩
    · exact ⟨.setf fidx, rfl, rfl⟩
    · exact ⟨i, (hfidx hbit).trans hi.symm, rfl⟩

/-- R64: the words that decode are those whose fields are not illegal. -/
theorem exists_decode_eq_ok_iff : (∃ i, decode w = .ok i) ↔ ¬ IllegalFields w := by
  have hbit : (fieldOp w).getLsbD 3 = w.getLsbD 3 := by simp [fieldOp]
  have hfields : (∃ i, decode w = .ok i) ↔
      fieldZ1 w = 0 ∧ fieldZ0 w = 0 ∧ ∃ i, fieldFidx w = fidxOf i ∧ fieldOp w = opOf i := by
    simp only [decode_eq_ok_iff, eq_encode_iff]
    exact ⟨fun ⟨i, hz1, hfidx, hz0, hop⟩ => ⟨hz1, hz0, i, hfidx, hop⟩,
      fun ⟨hz1, hz0, i, hfidx, hop⟩ => ⟨i, hz1, hfidx, hz0, hop⟩⟩
  rw [hfields, exists_instr_iff, hbit]
  simp only [IllegalFields, not_or, not_and, not_not, ne_eq]
  tauto

end Decode

end Sys2Proof
end

section
/-! The statements about decoding (R60 to R65). -/

namespace Sys2Proof.Machine

/-- Settles O16: `decode_eq_ok_iff` says which words decode, and `encode` is injective. -/
theorem decodedWordsAreExactlyTheEncodings : Obligations.DecodedWordsAreExactlyTheEncodings := by
  intro w
  cases hd : decode w with
  | ok i =>
    obtain rfl := decode_eq_ok_iff.mp hd
    exact .inl ⟨i, rfl, rfl, fun _ hj => (encode_injective hj).symm⟩
  | error e =>
    refine .inr ⟨⟨e, rfl⟩, ?_⟩
    rintro j rfl
    rw [decode_encode] at hd
    cases hd

/-- Settles O15. -/
theorem decodeOfEncodeIsTheInstruction : Obligations.DecodeOfEncodeIsTheInstruction := fun i _ => decode_encode i

/-- Settles O17: row by row; and a word that decodes is the word of an instruction, which matches its row. -/
theorem decodeFollowsTheOpcodeMap : Obligations.DecodeFollowsTheOpcodeMap := by
  intro w
  refine ⟨and_engineMask_eq_iff rfl (Laws.TableRow.getf _).1, and_engineMask_eq_iff rfl (Laws.TableRow.setf _).1,
    and_adapterMask_eq_encode_iff (i := .htobe16), and_adapterMask_eq_encode_iff (i := .htobe32),
    and_adapterMask_eq_encode_iff (i := .htobe64), and_adapterMask_eq_encode_iff (i := .betoh16),
    and_adapterMask_eq_encode_iff (i := .betoh32), and_adapterMask_eq_encode_iff (i := .betoh64), fun hengine hadapter => ?_⟩
  cases hd : decode w with
  | error e => exact ⟨e, rfl⟩
  | ok i =>
    obtain rfl := decode_eq_ok_iff.mp hd
    cases i with
    | getf f => exact absurd (List.mem_cons.mpr (.inl (Laws.TableRow.getf f).1)) hengine
    | setf f => exact absurd (List.mem_cons_of_mem _ (List.mem_singleton.mpr (Laws.TableRow.setf f).1)) hengine
    | _ => exact absurd (by decide) hadapter

/-- Settles O18: an illegal word does not decode, so the step is that of `step_illegal`. -/
theorem illegalWordsRaiseIllegalCmd : Obligations.IllegalWordsRaiseIllegalCmd := by
  intro w
  refine ⟨fun hill s rest hp => ?_, exists_decode_eq_ok_iff.mpr⟩
  have hcmd : regAt (regWord 0x008) = .cmd := regAt_regWord_low (by decide) (by decide)
  cases hd : decode w with
  | ok i => exact absurd hill (exists_decode_eq_ok_iff.mp ⟨i, hd⟩)
  | error e => exact step_illegal hp hcmd hd

/-- Settles O19: the five words are those of the five instructions. -/
theorem writtenOutWordsDecode : Obligations.WrittenOutWordsDecode :=
  ⟨decode_encode (.getf 1), decode_encode (.setf 255), decode_encode .htobe16,
    decode_encode .htobe64, decode_encode .betoh32⟩

end Sys2Proof.Machine
end

section
/-! The six commands of the byte-order adapter (R80 to R89): the byte swap reverses the bytes of a value, so doing it twice
gives the value again; and each command's RES written out on VAL. -/

namespace Sys2Proof.Machine

/-! ## The byte swap reverses the bytes (R80) -/

section Bytes

variable {n m : Nat}

/-- A bit vector is determined by its bytes. -/
theorem eq_of_bytes_eq {x y : BitVec n} (h : ∀ k, 8 * k < n → x.extractLsb' (8 * k) 8 = y.extractLsb' (8 * k) 8) : x = y := by
  refine BitVec.eq_of_getLsbD_eq fun i hi => ?_
  have hbit := congrArg (·.getLsbD (i % 8)) (h (i / 8) (by omega))
  simpa [BitVec.getLsbD_extractLsb', Nat.div_add_mod, Nat.mod_lt] using hbit

/-- The last byte of a value, and the bytes before it. -/
theorem extractLsb'_zero_append_byte (x : BitVec m) (b : Byte) : (x ++ b : BitVec (m + 8)).extractLsb' 0 8 = b :=
  BitVec.extractLsb'_append_eq_right

theorem extractLsb'_append_byte (x : BitVec m) (b : Byte) {i : Nat} (hi : 8 ≤ i) :
    (x ++ b : BitVec (m + 8)).extractLsb' i 8 = x.extractLsb' (i - 8) 8 :=
  BitVec.extractLsb'_append_eq_of_le hi

/-- `f` answers the bytes of its argument in reverse order. -/
def ReversesBytes (f : BitVec n → BitVec n) : Prop :=
  ∀ x, ∀ k < n / 8, (f x).extractLsb' (8 * k) 8 = x.extractLsb' (8 * (n / 8 - 1 - k)) 8

/-- Byte `k` goes to place `n / 8 - 1 - k` and back. -/
theorem ReversesBytes.involutive {f : BitVec n → BitVec n} (hf : ReversesBytes f) (hn : 8 ∣ n) : Function.Involutive f := by
  intro x
  refine eq_of_bytes_eq fun k hk => ?_
  have hplace : n / 8 - 1 - (n / 8 - 1 - k) = k := by omega
  rw [hf (f x) k (by omega), hf x (n / 8 - 1 - k) (by omega), hplace]

theorem bswap16_reversesBytes : ReversesBytes bswap16 := by
  intro x k hk
  interval_cases k <;> simp [bswap16, extractLsb'_zero_append_byte, extractLsb'_append_byte]

theorem bswap32_reversesBytes : ReversesBytes bswap32 := by
  intro x k hk
  interval_cases k <;> simp [bswap32, extractLsb'_zero_append_byte, extractLsb'_append_byte]

theorem bswap64_reversesBytes : ReversesBytes bswap64 := by
  intro x k hk
  interval_cases k <;> simp [bswap64, extractLsb'_zero_append_byte, extractLsb'_append_byte]

end Bytes

/-! ## The conversions (R81) -/

section Conversions

variable {n : Nat} (le : Bool)

/-- A conversion that one host does by an involution, and the other by leaving the value as it is. -/
theorem involutive_ite {f : BitVec n → BitVec n} (hf : Function.Involutive f) :
    Function.Involutive fun x => if le then f x else x := by
  cases le with
  | false => exact fun _ => rfl
  | true => exact hf

theorem hostToBE16_involutive : Function.Involutive (hostToBE16 le) :=
  involutive_ite le (bswap16_reversesBytes.involutive (by decide))

theorem hostToBE32_involutive : Function.Involutive (hostToBE32 le) :=
  involutive_ite le (bswap32_reversesBytes.involutive (by decide))

theorem hostToBE64_involutive : Function.Involutive (hostToBE64 le) :=
  involutive_ite le (bswap64_reversesBytes.involutive (by decide))

end Conversions

/-! ## Operand and result (R82) -/

section OperandAndResult

variable {n m : Nat} (v : Value)

/-- A result taken as the operand of the next command of the same width is itself. -/
theorem operandOfVal_resultOf (hn : n ≤ 64) (x : BitVec n) : operandOfVal n (resultOf n x) = x := by
  rw [operandOfVal, resultOf, BitVec.setWidth_setWidth_of_le x hn, BitVec.setWidth_eq]

theorem toNat_resultOf_operandOfVal (hn : n ≤ 64) : (resultOf n (operandOfVal n v)).toNat = v.toNat % 2 ^ n := by
  rw [resultOf, operandOfVal, BitVec.toNat_setWidth_of_le hn, BitVec.toNat_setWidth]

/-- An operand left as it is gives the low `n` bits of VAL. -/
theorem resultOf_operandOfVal (hn : n ≤ 64) : resultOf n (operandOfVal n v) = v &&& BitVec.ofNat 64 (2 ^ n - 1) := by
  have hmask : 2 ^ n - 1 < 2 ^ 64 :=
    (Nat.sub_one_lt (Nat.two_pow_pos n).ne').trans_le (Nat.pow_le_pow_right (by decide) hn)
  refine BitVec.eq_of_toNat_eq ?_
  rw [toNat_resultOf_operandOfVal v hn, BitVec.toNat_and, BitVec.toNat_ofNat, Nat.mod_eq_of_lt hmask,
    Nat.and_two_pow_sub_one_eq_mod]

/-- The last byte of a result stands in bits 7 to 0 of RES, the bytes before it above. -/
theorem resultOf_append_byte (x : BitVec m) (b : Byte) : resultOf (m + 8) (x ++ b) = resultOf m x <<< 8 ||| resultOf 8 b :=
  BitVec.setWidth_append_eq_shiftLeft_setWidth_or

/-- A byte of the operand is a byte of VAL. -/
theorem resultOf_byte {k : Nat} (hk : k + 8 ≤ n) : resultOf 8 ((operandOfVal n v).extractLsb' k 8) = (v >>> k) &&& 0xFF := by
  have hbyte : (operandOfVal n v).extractLsb' k 8 = operandOfVal 8 (v >>> k) := BitVec.extractLsb'_setWidth_of_le hk
  rw [hbyte, resultOf_operandOfVal _ (by decide)]
  rfl

/-- The swapped operands, byte by byte, in the order of the bytes of RES. -/
theorem resultOf_bswap16 : resultOf 16 (bswap16 (operandOfVal 16 v)) = ((v &&& 0xFF) <<< 8) ||| ((v >>> 8) &&& 0xFF) := by
  rw [bswap16, resultOf_append_byte, resultOf_byte v (by decide), resultOf_byte v (by decide), BitVec.ushiftRight_zero]

theorem resultOf_bswap32 : resultOf 32 (bswap32 (operandOfVal 32 v)) =
    ((v &&& 0xFF) <<< 24) ||| (((v >>> 8) &&& 0xFF) <<< 16) ||| (((v >>> 16) &&& 0xFF) <<< 8) ||| ((v >>> 24) &&& 0xFF) := by
  rw [bswap32, resultOf_append_byte, resultOf_append_byte, resultOf_append_byte]
  simp only [resultOf_byte v, Nat.reduceAdd, Nat.reduceLeDiff, BitVec.ushiftRight_zero, BitVec.shiftLeft_or_distrib,
    ← BitVec.shiftLeft_add]

theorem resultOf_bswap64 : resultOf 64 (bswap64 (operandOfVal 64 v)) =
    ((v &&& 0xFF) <<< 56) ||| (((v >>> 8) &&& 0xFF) <<< 48) ||| (((v >>> 16) &&& 0xFF) <<< 40) |||
      (((v >>> 24) &&& 0xFF) <<< 32) ||| (((v >>> 32) &&& 0xFF) <<< 24) ||| (((v >>> 40) &&& 0xFF) <<< 16) |||
      (((v >>> 48) &&& 0xFF) <<< 8) ||| ((v >>> 56) &&& 0xFF) := by
  rw [bswap64, resultOf_append_byte, resultOf_append_byte, resultOf_append_byte, resultOf_append_byte, resultOf_append_byte,
    resultOf_append_byte, resultOf_append_byte]
  simp only [resultOf_byte v, Nat.reduceAdd, Nat.reduceLeDiff, BitVec.ushiftRight_zero, BitVec.shiftLeft_or_distrib,
    ← BitVec.shiftLeft_add]

end OperandAndResult

/-! ## The commands (R82 to R89) -/

section Adapter

variable {n : Nat} {f : Bool → BitVec n → BitVec n} {s t u : State}

/-- R82: everything an adapter command can do. -/
theorem adapterCommand_eq_next : adapterCommand n f s = .next t ↔
    t = completeWithResult (resultOf n (f s.params.hostLe (operandOfVal n s.val))) s := by
  simp [adapterCommand, eq_comm]

/-- R82: RES of an adapter command whose function swaps the bytes of the operand on a little-endian host alone. -/
theorem adapterCommand_of_result {swapped kept : Value}
    (hswapped : resultOf n (f true (operandOfVal n s.val)) = swapped)
    (hkept : resultOf n (f false (operandOfVal n s.val)) = kept) :
    adapterCommand n f s = .next { s with res := if s.params.hostLe then swapped else kept, status := 0x100 } := by
  have hres : resultOf n (f s.params.hostLe (operandOfVal n s.val)) = if s.params.hostLe then swapped else kept := by
    cases s.params.hostLe with
    | true => exact hswapped
    | false => exact hkept
  rw [adapterCommand_eq_next, completeWithResult, hres]
  rfl

/-- R89(b): a command whose function is an involution, done again on its own result. -/
theorem toNat_res_adapterCommand_twice (hn : n ≤ 64) (hf : ∀ le, Function.Involutive (f le))
    (ht : adapterCommand n f s = .next t) (hu : adapterCommand n f { t with val := t.res } = .next u) :
    u.res.toNat = s.val.toNat % 2 ^ n := by
  obtain rfl := adapterCommand_eq_next.mp ht
  obtain rfl := adapterCommand_eq_next.mp hu
  simp only [completeWithResult_res, completeWithResult_params, operandOfVal_resultOf hn, hf _ _,
    toNat_resultOf_operandOfVal _ hn]

/-- R81, R86 to R88: the two directions of a width are one command. -/
theorem exec_betoh16 (s : State) : exec .betoh16 s = exec .htobe16 s := rfl
theorem exec_betoh32 (s : State) : exec .betoh32 s = exec .htobe32 s := rfl
theorem exec_betoh64 (s : State) : exec .betoh64 s = exec .htobe64 s := rfl

end Adapter

/-- Settles O28: for each pair the two commands are one command, whose function is an involution. -/
theorem adapterCommandsAreInvolutions : Obligations.AdapterCommandsAreInvolutions := by
  intro s t u i j n hmem ht hu
  simp only [List.mem_cons, List.not_mem_nil, or_false, Prod.mk.injEq] at hmem
  rcases hmem with ⟨rfl, rfl, rfl⟩ | ⟨rfl, rfl, rfl⟩ | ⟨rfl, rfl, rfl⟩ | ⟨rfl, rfl, rfl⟩ |
    ⟨rfl, rfl, rfl⟩ | ⟨rfl, rfl, rfl⟩
  · exact toNat_res_adapterCommand_twice (by decide) hostToBE16_involutive ht ((exec_betoh16 _).symm.trans hu)
  · exact toNat_res_adapterCommand_twice (by decide) hostToBE16_involutive ht hu
  · exact toNat_res_adapterCommand_twice (by decide) hostToBE32_involutive ht ((exec_betoh32 _).symm.trans hu)
  · exact toNat_res_adapterCommand_twice (by decide) hostToBE32_involutive ht hu
  · exact toNat_res_adapterCommand_twice (by decide) hostToBE64_involutive ht ((exec_betoh64 _).symm.trans hu)
  · exact toNat_res_adapterCommand_twice (by decide) hostToBE64_involutive ht hu

/-- Settles O22: RES is the result of the swapped operand, or of the operand as it is. -/
theorem htobe16ResultAndFrame : Obligations.Htobe16ResultAndFrame :=
  ⟨decode_encode .htobe16, fun s =>
    adapterCommand_of_result (resultOf_bswap16 s.val) (resultOf_operandOfVal s.val (by decide))⟩

/-- Settles O23, as O22 with four bytes. -/
theorem htobe32ResultAndFrame : Obligations.Htobe32ResultAndFrame :=
  ⟨decode_encode .htobe32, fun s =>
    adapterCommand_of_result (resultOf_bswap32 s.val) (resultOf_operandOfVal s.val (by decide))⟩

/-- Settles O24: the operand is the whole of VAL. -/
theorem htobe64ResultAndFrame : Obligations.Htobe64ResultAndFrame :=
  ⟨decode_encode .htobe64, fun s =>
    adapterCommand_of_result (resultOf_bswap64 s.val) (operandOfVal_resultOf le_rfl s.val)⟩

/-- Settles O25: BETOH16 is HTOBE16 by another word. -/
theorem betoh16ResultAndFrame : Obligations.Betoh16ResultAndFrame :=
  ⟨decode_encode .betoh16, fun s => ⟨(exec_betoh16 s).trans (htobe16ResultAndFrame.2 s), exec_betoh16 s⟩⟩

/-- Settles O26: BETOH32 is HTOBE32 by another word. -/
theorem betoh32ResultAndFrame : Obligations.Betoh32ResultAndFrame :=
  ⟨decode_encode .betoh32, fun s => ⟨(exec_betoh32 s).trans (htobe32ResultAndFrame.2 s), exec_betoh32 s⟩⟩

/-- Settles O27: BETOH64 is HTOBE64 by another word. -/
theorem betoh64ResultAndFrame : Obligations.Betoh64ResultAndFrame :=
  ⟨decode_encode .betoh64, fun s => ⟨(exec_betoh64 s).trans (htobe64ResultAndFrame.2 s), exec_betoh64 s⟩⟩

end Sys2Proof.Machine
end

section
/-! How the chunks of a valid field lie (R101, R104, R105, R114): each bit of the field is in one chunk, and the chunk's place
in its word and its place in the field value name the same buffer bit. -/

namespace Sys2Proof.Machine

/-- The buffer bit position just past a descriptor's field (R101). -/
def Descriptor.stop (d : Descriptor) : Nat := d.start + d.bitWidth.toNat

/-- A chunk of a field that stops at buffer bit `e` (R105): it has a bit and lies in one word, and its lowest bit, of weight
`shift` in the word and `sig` in the value, is one buffer bit. -/
structure Chunk.LiesIn (c : Chunk) (e : Nat) : Prop where
  nonempty : 1 ≤ c.width
  inWord : c.shift + c.width ≤ 32
  placed : 32 * c.word + 32 + c.sig = e + c.shift

/-- Chunks that hold the low `n` bits of the value of a field that stops at buffer bit `e`, each bit once, most significant
first. -/
def Tiles (e : Nat) : Nat → List Chunk → Prop
  | n, [] => n = 0
  | n, c :: rest => c.sig + c.width = n ∧ c.LiesIn e ∧ Tiles e c.sig rest

/-- Chunk number `k` begins at the field's first bit where it is the first, and at its word's first bit otherwise. -/
theorem tiles_chunksFrom {wi bo bw fuel k p : Nat} (ho : bo ≤ 31) (hp : p ≤ bw)
    (hpos : p < bw → 32 * k + (if k = 0 then bo else 0) = bo + p)
    (hfuel : bw + (if k = 0 then bo else 0) ≤ p + 32 * fuel) :
    Tiles (32 * wi + bo + bw) (bw - p) (chunksFrom wi bo bw fuel k p) := by
  induction fuel generalizing k p with
  | zero => exact Nat.sub_eq_zero_of_le (by omega)
  | succ fuel ih =>
    rw [chunksFrom]
    split
    · rename_i hlt
      have hoff : (if k = 0 then bo else 0) ≤ 31 := by split <;> omega
      have hword : (chunkAt wi bo bw k p).word = wi + k := rfl
      have hwidth : (chunkAt wi bo bw k p).width = min (32 - if k = 0 then bo else 0) (bw - p) := rfl
      have hshift : (chunkAt wi bo bw k p).shift =
          32 - (if k = 0 then bo else 0) - (chunkAt wi bo bw k p).width := rfl
      have hsig : (chunkAt wi bo bw k p).sig = bw - p - (chunkAt wi bo bw k p).width := rfl
      specialize hpos hlt
      generalize (if k = 0 then bo else 0) = o at *
      refine ⟨by omega, ⟨by omega, by omega, by omega⟩, ?_⟩
      rw [hsig, Nat.sub_sub]
      exact ih (by omega) (by simp; omega) (by simp; omega)
    · exact Nat.sub_eq_zero_of_le (by omega)

/-- R105: the chunks of a valid descriptor hold its field. -/
theorem Descriptor.tiles {d : Descriptor} (hv : d.valid = true) : Tiles d.stop d.bitWidth.toNat d.chunks := by
  obtain ⟨hw, ho⟩ := valid_iff.1 hv
  exact tiles_chunksFrom ho (Nat.zero_le _) (by simp) (by simp; omega)

namespace Tiles

variable {e n : Nat} {cs : List Chunk}

theorem sum_width (h : Tiles e n cs) : (cs.map Chunk.width).sum = n := by
  induction cs generalizing n with
  | nil => exact Eq.symm h
  | cons c rest ih =>
    obtain ⟨hn, -, hrest⟩ := h
    rw [List.map_cons, List.sum_cons, ih hrest, Nat.add_comm, hn]

theorem of_mem (h : Tiles e n cs) {c : Chunk} (hc : c ∈ cs) : c.LiesIn e ∧ c.sig + c.width ≤ n := by
  induction cs generalizing n with
  | nil => cases hc
  | cons c' rest ih =>
    obtain ⟨hn, hlies, hrest⟩ := h
    rcases List.mem_cons.1 hc with rfl | hc
    · exact ⟨hlies, hn.le⟩
    · obtain ⟨hl, hle⟩ := ih hrest hc
      exact ⟨hl, by omega⟩

end Tiles

/-- R45: a field of a valid descriptor stops inside buffer word 257. -/
theorem Descriptor.stop_le {d : Descriptor} (hv : d.valid = true) : d.stop ≤ 32 * 257 + 31 := by
  obtain ⟨hw, ho⟩ := valid_iff.1 hv
  rw [Descriptor.stop, Descriptor.start]
  omega

theorem Chunk.LiesIn.word_le {c : Chunk} {e : Nat} (h : c.LiesIn e) (he : e ≤ 32 * 257 + 31) : c.word ≤ 257 := by
  obtain ⟨h1, h2, h3⟩ := h
  omega

/-! ## The bits of a chunk -/

theorem toNat_chunkOfWord_lt {c : Chunk} (h : c.shift + c.width ≤ 32) (w : Word) :
    (chunkOfWord c w).toNat < 2 ^ c.width := by
  refine Nat.lt_pow_two_of_testBit _ fun i hi => ?_
  rw [BitVec.testBit_toNat, getLsbD_chunkOfWord h, decide_eq_false (by omega), Bool.false_and]

theorem toNat_chunkOfValue_lt (c : Chunk) (v : Value) : (chunkOfValue c v).toNat < 2 ^ c.width := by
  rw [chunkOfValue, BitVec.toNat_ofNat]
  exact (Nat.mod_le ..).trans_lt (Nat.mod_lt _ (Nat.two_pow_pos _))

/-- Settles O30: the words of the chunks are known, and `Tiles` gives the sum of their widths. -/
theorem fieldHasNwordsChunks : Obligations.FieldHasNwordsChunks := by
  intro d hw ho
  have hv := valid_iff.2 ⟨hw, ho⟩
  have hwords := map_word_chunks hv
  refine ⟨rfl, ?_, nwords_le_three hv, (Descriptor.tiles hv).sum_width, hwords⟩
  simpa using congrArg List.length hwords

/-- Settles O31: by the place of the chunk, `Tiles.of_mem`. -/
theorem chunkQuantitiesFitTheirWidths : Obligations.ChunkQuantitiesFitTheirWidths := by
  intro d c w v hw ho hc
  have hv := valid_iff.2 ⟨hw, ho⟩
  obtain ⟨hlies, hsig⟩ := (Descriptor.tiles hv).of_mem hc
  have hword := toNat_chunkOfWord_lt hlies.inWord w
  have hplaced : (chunkOfWord c w).toNat <<< c.sig < 2 ^ d.bitWidth.toNat := calc
    (chunkOfWord c w).toNat <<< c.sig < 2 ^ c.width <<< c.sig := by
      simpa only [Nat.shiftLeft_eq] using Nat.mul_lt_mul_of_pos_right hword (Nat.two_pow_pos _)
    _ = 2 ^ (c.width + c.sig) := by rw [Nat.shiftLeft_eq, pow_add]
    _ ≤ 2 ^ d.bitWidth.toNat := Nat.pow_le_pow_right (by decide) (by omega)
  have hinWord := hlies.inWord
  exact ⟨hlies.nonempty, by omega, hinWord, hsig, hlies.word_le (Descriptor.stop_le hv), hword,
    toNat_chunkOfValue_lt c v, hplaced⟩

/-- The widths, masks and shifts of the chunks do not depend on the word the field begins in. -/
theorem chunksFrom_eq_map (wi bo bw fuel k p : Nat) :
    chunksFrom wi bo bw fuel k p = (chunksFrom 0 bo bw fuel k p).map fun c => { c with word := wi + c.word } := by
  induction fuel generalizing k p with
  | zero => rfl
  | succ fuel ih =>
    rw [chunksFrom, chunksFrom]
    split
    · rw [List.map_cons, ih]
      simp [chunkAt]
    · rfl

/-- A row of the table of R119 holds of the chunks of a field that begins in word 0. -/
abbrev SplitRow (bo bw sh0 : Nat) (splits : List (Nat × Word)) : Prop :=
  bo < 256 ∧ bw < 256 ∧ (chunksFrom 0 bo bw 3 0 0).map (fun c => (c.width, c.mask)) = splits ∧
    ((chunksFrom 0 bo bw 3 0 0).map Chunk.shift).head? = some sh0

/-- A table whose rows hold in word 0 holds in every word. -/
theorem splits_of_rows {rows : List (Nat × Nat × Nat × List (Nat × Word))}
    (hrows : ∀ row ∈ rows, SplitRow row.1 row.2.1 row.2.2.1 row.2.2.2) (bo bw sh0 : Nat) (splits : List (Nat × Word))
    (hrow : (bo, bw, sh0, splits) ∈ rows) (wi : BitVec 8) :
    let d : Descriptor := { wordIndex := wi, bitOffset := BitVec.ofNat 8 bo, bitWidth := BitVec.ofNat 8 bw }
    d.chunks.map (fun c => (c.width, c.mask)) = splits ∧ (d.chunks.map Chunk.shift).head? = some sh0 := by
  obtain ⟨hbo, hbw, hsplits, hshift⟩ := hrows _ hrow
  intro d
  have hchunks : d.chunks = (chunksFrom 0 bo bw 3 0 0).map fun c => { c with word := wi.toNat + c.word } := by
    rw [← chunksFrom_eq_map, Descriptor.chunks, BitVec.toNat_ofNat, BitVec.toNat_ofNat, Nat.mod_eq_of_lt hbo,
      Nat.mod_eq_of_lt hbw]
  rw [hchunks, List.map_map, List.map_map]
  exact ⟨hsplits, hshift⟩

/-- Settles O32: the table is checked row by row for a field that begins in word 0. -/
theorem chunkSplitTable : Obligations.ChunkSplitTable := splits_of_rows (by decide)

end Sys2Proof.Machine
end

section
/-! The engine's checks in their order (R102, R103, R143, R145), the field of width 0 (R113), and what SETF reads of VAL (R112). -/

namespace Sys2Proof.Machine

section Checks

variable {s t : State} {f : BitVec 8} {d : Descriptor} {i : Instr}

theorem Accepts.selected (h : Accepts s f d) : s.descriptor f = some d := by
  obtain ⟨-, -, hd, -⟩ := h
  exact hd

theorem validate_of_index_range (hb : s.bufv = true) (hn : s.nfields.toNat ≤ f.toNat) :
    validate f s = .failed .indexRange := by
  simp [validate, hb, hn]

/-- R102: past the index check, the selected descriptor decides. -/
theorem validate_of_selected (hb : s.bufv = true) (hn : f.toNat < s.nfields.toNat) (hd : s.descriptor f = some d) :
    validate f s = validateDescriptor d s := by
  simp [validate, hb, hn, hd]

theorem validateDescriptor_of_bad (h : 64 < d.bitWidth.toNat ∨ 31 < d.bitOffset.toNat) :
    validateDescriptor d s = .failed .badDescriptor := by
  have hv : ¬ d.valid = true := by rw [valid_iff]; omega
  simp [validateDescriptor, hv]

theorem nwords_of_pos (h : 0 < d.bitWidth.toNat) : d.nwords = (d.bitOffset.toNat + d.bitWidth.toNat + 31) / 32 := by
  rw [Descriptor.nwords, nwords, if_neg h.ne']

theorem validateDescriptor_of_short (hv : d.valid = true) (hc : s.lenchk = true) (hw : 0 < d.bitWidth.toNat)
    (hlen : s.bufLen.toNat < 4 * (d.wordIndex.toNat + (d.bitOffset.toNat + d.bitWidth.toNat + 31) / 32)) :
    validateDescriptor d s = .failed .length := by
  have hfails : lengthFails d s = true := lengthFails_iff.2 (by rw [nwords_of_pos hw]; omega)
  simp [validateDescriptor, hv, hc, hfails]

/-- Settles O33: each check fails when the ones before it have passed. -/
theorem failedChecksReportInOrder : Obligations.FailedChecksReportInOrder := by
  intro s f i hi
  refine ⟨fun hb => exec_engine_of_failed hi (validate_of_no_buffer hb),
    fun hb hn => exec_engine_of_failed hi (validate_of_index_range hb hn), fun d hb hn hd => ⟨fun hbad => ?_, ?_⟩⟩
  · exact exec_engine_of_failed hi ((validate_of_selected hb hn hd).trans (validateDescriptor_of_bad hbad))
  · intro hw ho hc hpos hlen
    exact exec_engine_of_failed hi ((validate_of_selected hb hn hd).trans
      (validateDescriptor_of_short (valid_iff.2 ⟨hw, ho⟩) hc hpos hlen))

/-- Everything an engine command can do when it answers a next state, as far as GETF and SETF agree. -/
theorem exec_engine_eq_next (hi : i = .getf f ∨ i = .setf f) (h : exec i s = .next t) :
    (∃ c, validate f s = .failed c ∧ t = raiseInvalidArgument c s) ∨
      ∃ d rv, Accepts s f d ∧ OwnsField s d ∧ t.status = statusOk rv := by
  rcases hi with rfl | rfl
  · rcases execGetf_eq_next.1 h with hfail | ⟨d, r, s', hv, hx, rfl⟩
    · exact .inl hfail
    · have ha := validate_eq_passed.1 hv
      exact .inr ⟨d, true, ha, (isSome_extractField_iff ha.valid).1 (by rw [hx]; rfl), rfl⟩
  · rcases execSetf_eq_next.1 h with hfail | ⟨d, s', hv, hx, rfl⟩
    · exact .inl hfail
    · have ha := validate_eq_passed.1 hv
      exact .inr ⟨d, false, ha, (isSome_injectField_iff ha.valid).1 (by rw [hx]; rfl), rfl⟩

theorem statusCode_statusOk (rv : Bool) : statusCode (statusOk rv) = 0 := by
  cases rv <;> rfl

theorem statusFailed_mem {c : Cause} (hc : c ≠ .illegalCmd) :
    statusFailed c ∈ ([0x011, 0x021, 0x031, 0x041] : List (BitVec 9)) := by
  cases c with
  | illegalCmd => exact absurd rfl hc
  | _ => decide

/-- Settles O36: the two kinds of answer of `exec_engine_eq_next`; validation does not fail with ILLEGAL_CMD. -/
theorem engineCommandsNeverFinishHalfway : Obligations.EngineCommandsNeverFinishHalfway := by
  intro s t f i hi h
  rcases exec_engine_eq_next hi h with ⟨c, hv, rfl⟩ | ⟨d, rv, ha, ho, hst⟩
  · refine .inl ⟨rfl, statusFailed_mem ?_⟩
    rintro rfl
    exact validate_failed_ne_illegalCmd hv
  · exact .inr ⟨⟨d, ha, ho⟩, by rw [hst, statusCode_statusOk], by rw [hst, statusCause_statusOk]⟩

/-! ## A field of width 0 (R113) -/

theorem nwords_of_width_zero (h : d.bitWidth = 0) : d.nwords = 0 := by
  simp [Descriptor.nwords, nwords, h]

theorem chunks_of_width_zero (h : d.bitWidth = 0) : d.chunks = [] := by
  simp [Descriptor.chunks, chunksFrom, h]

/-- Settles O39: the length check does not apply, and there is no chunk. -/
theorem zeroWidthFieldTouchesNothing : Obligations.ZeroWidthFieldTouchesNothing := by
  intro s f d hb hn hd hw ho
  have hpass : validate f s = .passed d :=
    validate_eq_passed.2 ⟨hb, hn, hd, by simp [hw], ho, fun _ hpos => by simp [nwords_of_width_zero hw] at hpos⟩
  constructor
  · exact execGetf_eq_next.2 (.inr ⟨d, 0, s, hpass, by rw [extractField, chunks_of_width_zero hw]; rfl, rfl⟩)
  · exact execSetf_eq_next.2 (.inr ⟨d, s, hpass, by rw [injectField, chunks_of_width_zero hw]; rfl, rfl⟩)

end Checks

/-! ## VAL (R112) -/

/-- The same state with another VAL. -/
def State.withVal (v : Value) (s : State) : State := { s with val := v }

theorem engineBlind_withVal (v : Value) : EngineBlind (State.withVal v) where
  wordAddr_eq _ _ := rfl
  quadAt_eq _ _ := rfl
  logEvent_comm _ _ := rfl
  setQuad_comm _ _ _ := rfl
  raise_comm _ _ := rfl
  result_comm _ _ := rfl
  noResult_comm _ := rfl

theorem validate_withVal (f : BitVec 8) (v : Value) (s : State) : validate f (s.withVal v) = validate f s :=
  validate_congr rfl rfl rfl rfl

/-- R112: the value a field takes is that of VAL truncated. -/
theorem fieldValue_of_toNat_mod {bw : Nat} {u v : Value} (h : v.toNat = u.toNat % 2 ^ bw) :
    fieldValue bw v = fieldValue bw u := by
  rw [fieldValue, fieldValue, h, Nat.mod_mod]

/-- Settles O46: SETF commutes with a change of VAL that leaves it the same field value to store. -/
theorem setfTruncatesTheValue : Obligations.SetfTruncatesTheValue := by
  intro s t f d v hd hv h
  have hsame : ∀ e, validate f s = .passed e →
      fieldValue e.bitWidth.toNat (s.withVal v).val = fieldValue e.bitWidth.toNat s.val := by
    intro e he
    have hsel := (validate_eq_passed.1 he).selected
    obtain rfl : d = e := Option.some.inj (hd.symm.trans hsel)
    exact fieldValue_of_toNat_mod hv
  have hexec := (engineBlind_withVal v).execSetf (validate_withVal f v s) hsame
  exact hexec.trans (congrArg (mapNext (State.withVal v)) h)

end Sys2Proof.Machine
end

section
/-! Word accesses (R108), and SETF's frame over the bytes of the buffer memory (R111). -/

namespace Sys2Proof.Machine

section Frame

variable {s s' t : State} {f : BitVec 8} {d : Descriptor}

theorem byteAt_setQuad_other {A a : Nat} (q : Quad) (h : ∀ b < 4, a ≠ wrapAddr s (A + b)) :
    (setQuad A q s).byteAt a = s.byteAt a := by
  rw [byteAt_setQuad, if_neg (h 3 (by decide)), if_neg (h 2 (by decide)), if_neg (h 1 (by decide)),
    if_neg (show a ≠ wrapAddr s A from h 0 (by decide))]

/-- Settles O29: the two byte orders cancel (`loadWord_eq_some`, `storeWord_eq_some`), and storing four bytes has its own
laws. -/
theorem wordAccessesAreBigEndian : Obligations.WordAccessesAreBigEndian := by
  intro s j q hq
  constructor
  · exact ⟨_, loadWord_eq_some.2 ⟨q, hq, rfl, rfl⟩, rfl⟩
  · intro w
    refine ⟨_, storeWord_eq_some.2 ⟨⟨q, hq⟩, rfl⟩, rfl, fun hp => ?_, fun a ha => ?_⟩
    · rw [quadAt_logEvent, quadAt_setQuad _ hp]
    · rw [byteAt_logEvent, byteAt_setQuad_other _ ha]

/-- The loop of SETF changes no byte outside its chunks' words. -/
theorem byteAt_injectChunks_other {v : Value} {cs : List Chunk} (h : injectChunks v cs s = some s') {a : Nat}
    (ha : ∀ c ∈ cs, ∀ b < 4, a ≠ wrapAddr s (wordAddr s c.word + b)) : s'.byteAt a = s.byteAt a := by
  induction cs generalizing s with
  | nil => cases h; rfl
  | cons c rest ih =>
    obtain ⟨q, -, h⟩ := injectChunks_cons_eq_some.1 h
    obtain ⟨hc, hrest⟩ := List.forall_mem_cons.1 ha
    rw [ih h (by simpa only [wrapAddr_injectOne, wordAddr_injectOne] using hrest), byteAt_injectOne,
      byteAt_setQuad_other _ hc]

/-- R111: SETF changes no byte outside the words its field touches. -/
theorem byteAt_setf_other (hd : s.descriptor f = some d) (h : exec (.setf f) s = .next t) {a : Nat}
    (ha : OutsideField s d a) : t.byteAt a = s.byteAt a := by
  rcases execSetf_eq_next.1 h with ⟨c, -, rfl⟩ | ⟨e, s', hv, hx, rfl⟩
  · rfl
  · have hacc := validate_eq_passed.1 hv
    obtain rfl : d = e := Option.some.inj (hd.symm.trans hacc.selected)
    have hwords := (forall_chunks_iff hacc.valid fun j => ∀ b < 4, a ≠ wrapAddr s (wordAddr s j + b)).2 ha
    exact byteAt_injectChunks_other hx hwords

/-- Settles O43: the registers are `execSetf_frame`, the bytes `byteAt_setf_other`; a command that completes has CODE 0. -/
theorem setfChangesOnlyTheTouchedWords : Obligations.SetfChangesOnlyTheTouchedWords := by
  intro s t f h
  refine ⟨execSetf_frame h, fun hcode => ?_, fun d a hd ha => byteAt_setf_other hd h ha⟩
  rcases execSetf_eq_next.1 h with ⟨c, -, rfl⟩ | ⟨d, s', -, -, rfl⟩
  · rfl
  · exact absurd (statusCode_statusOk false) hcode

end Frame

end Sys2Proof.Machine
end

section
/-! The field as buffer bits (R101, R110, R111, R115, R116): what GETF reads and what SETF leaves, bit by bit. Bit `m` of the
value of a field is the buffer bit `m + 1` places before the field's stop, through whichever chunk it moves. -/

namespace Sys2Proof.Machine

section Bits

variable {s s' t : State} {f : BitVec 8} {d : Descriptor} {e n : Nat} {cs : List Chunk} {c : Chunk} {q : Quad} {v : Value}

/-! ## Reading -/

/-- R110: a bit of a chunk in its place in the result is the buffer bit in that place of the field. -/
theorem getLsbD_chunk_eq_bufferBit (hl : c.LiesIn e) (h64 : c.sig + c.width ≤ 64)
    (hq : quadAt s (wordAddr s c.word) = some q) (m : Nat) :
    ((chunkOfWord c (be32 q)).setWidth 64 <<< c.sig).getLsbD m =
      (decide (c.sig ≤ m ∧ m < c.sig + c.width) && decide (bufferBit s (e - 1 - m) = some true)) := by
  obtain ⟨-, hword, hplaced⟩ := hl
  rw [getLsbD_chunk_placed hword]
  by_cases hm : c.sig ≤ m ∧ m < c.sig + c.width
  · obtain ⟨hlo, hhi⟩ := hm
    have hpos : e - 1 - m = 32 * c.word + (31 - (c.shift + (m - c.sig))) := by omega
    have hbit : 31 - (31 - (c.shift + (m - c.sig))) = c.shift + (m - c.sig) := by omega
    rw [hpos, bufferBit_of_quadAt hq (by omega), hbit]
    simp [hlo, hhi, show m < 64 by omega]
  · have hout : (decide (c.sig ≤ m) && decide (m < c.sig + c.width)) = false := by
      rw [← Bool.decide_and]
      exact decide_eq_false hm
    rw [decide_eq_false hm, Bool.and_assoc (decide (m < 64)), hout, Bool.and_false, Bool.false_and, Bool.false_and]

/-- R110: the loop of GETF puts the buffer bits of the chunks in their places. -/
theorem getLsbD_extractChunks (ht : Tiles e n cs) (hn : n ≤ 64) {r r' : Value}
    (h : extractChunks cs r s = some (r', s')) (m : Nat) :
    r'.getLsbD m = (r.getLsbD m || (decide (m < n) && decide (bufferBit s (e - 1 - m) = some true))) := by
  induction cs generalizing n r s with
  | nil =>
    obtain rfl : n = 0 := ht
    cases h
    simp
  | cons c rest ih =>
    obtain ⟨rfl, hlies, hrest⟩ := ht
    obtain ⟨q, hq, h⟩ := extractChunks_cons_eq_some.1 h
    have hsame : bufferBit (logEvent (.read (wordAddr s c.word) q) s) = bufferBit s := rfl
    have hsplit : decide (m < c.sig + c.width) =
        (decide (c.sig ≤ m ∧ m < c.sig + c.width) || decide (m < c.sig)) := by
      rw [← Bool.decide_or]
      exact decide_eq_decide.2 (by omega)
    rw [ih hrest (by omega) h, hsame, BitVec.getLsbD_or, getLsbD_chunk_eq_bufferBit hlies hn hq, hsplit,
      Bool.and_or_distrib_right, Bool.or_assoc]

/-- R115: the value whose bits are the buffer bits of a field. -/
def HoldsField (s : State) (d : Descriptor) (r : Value) : Prop :=
  ∀ m, r.getLsbD m = (decide (m < d.bitWidth.toNat) && decide (bufferBit s (d.stop - 1 - m) = some true))

theorem HoldsField.unique {r r' : Value} (h : HoldsField s d r) (h' : HoldsField s d r') : r = r' :=
  BitVec.eq_of_getLsbD_eq fun m _ => (h m).trans (h' m).symm

/-- R110, R115: everything GETF does on a field it accepts and whose words the caller owns. -/
theorem exists_getf (ha : Accepts s f d) (ho : OwnsField s d) :
    ∃ t, exec (.getf f) s = .next t ∧ t = { s with res := t.res, status := 0x100, memLog := t.memLog } ∧
      HoldsField s d t.res := by
  have hpass := validate_eq_passed.2 ha
  obtain ⟨hw, -⟩ := valid_iff.1 ha.valid
  obtain ⟨⟨r, s'⟩, hx⟩ := Option.isSome_iff_exists.1 ((isSome_extractField_iff ha.valid).2 ho)
  refine ⟨completeWithResult r s', execGetf_eq_next.2 (.inr ⟨d, r, s', hpass, hx, rfl⟩), ?_, fun m => ?_⟩
  · rw [extractChunks_frame hx]
    rfl
  · simpa using getLsbD_extractChunks (Descriptor.tiles ha.valid) hw hx m

/-! ## Writing -/

/-- The buffer bits after a word is stored, for every byte of the address space. -/
theorem bufferBit_setQuad {j p : Nat} (q : Quad) (hp : s.params.wf = true) (hj : j ≤ 257)
    (hpos : p / 8 < 2 ^ s.params.addrW) :
    bufferBit (setQuad (wordAddr s j) q s) p =
      if p / 32 = j then some ((be32 q).getLsbD (31 - p % 32)) else bufferBit s p := by
  split
  · rename_i hin
    have hplace : p = 32 * j + p % 32 := by omega
    have hq := quadAt_setQuad (s := s) (j := j) q hp
    rw [hplace, bufferBit_of_quadAt (s := setQuad (wordAddr s j) q s) hq (Nat.mod_lt _ (by decide))]
    congr 3
    omega
  · rename_i hout
    have hreach := reach_lt hp
    have hne : ∀ b < 4, wrapAddr s (s.bufBase.toNat + p / 8) ≠ wrapAddr s (wordAddr s j + b) := by
      intro b hb heq
      rw [wrapAddr_wordAddr] at heq
      have := wrapAddr_inj hpos (by omega) heq
      omega
    rw [bufferBit, setQuad_bufBase, wrapAddr_setQuad, byteAt_setQuad_other q hne, bufferBit]

/-- R111: one round of SETF's loop gives the buffer bits of the chunk the bits of the value, and no others. -/
theorem bufferBit_injectOne (hp : s.params.wf = true) (hl : c.LiesIn e) (he : e ≤ 32 * 257 + 31)
    (hq : quadAt s (wordAddr s c.word) = some q) {p : Nat} (hpos : p / 8 < 2 ^ s.params.addrW) :
    bufferBit (injectOne v c q s) p =
      if p + c.sig < e ∧ e ≤ p + (c.sig + c.width) then some (v.getLsbD (e - 1 - p)) else bufferBit s p := by
  have hmem : bufferBit (injectOne v c q s) p =
      bufferBit (setQuad (wordAddr s c.word) (bytesBe32 (mergeChunk c v (be32 q))) s) p := by
    simp only [bufferBit, injectOne_bufBase, setQuad_bufBase, wrapAddr_injectOne, wrapAddr_setQuad, byteAt_injectOne]
  rw [hmem, bufferBit_setQuad _ hp (hl.word_le he) hpos, be32_bytesBe32]
  obtain ⟨hwidth, hword, hplaced⟩ := hl
  by_cases hin : p / 32 = c.word
  · have hbit : bufferBit s p = some ((be32 q).getLsbD (31 - p % 32)) := by
      rw [← bufferBit_of_quadAt hq (Nat.mod_lt p (by decide))]
      congr 1
      omega
    rw [if_pos hin, getLsbD_mergeChunk hword v _ (by omega), hbit, ← apply_ite some]
    by_cases hchunk : p + c.sig < e ∧ e ≤ p + (c.sig + c.width)
    · have hm : c.sig + (31 - p % 32 - c.shift) = e - 1 - p := by omega
      rw [if_pos hchunk, if_pos (by omega), hm]
    · rw [if_neg hchunk, if_neg (by omega)]
  · rw [if_neg hin, if_neg (by omega)]

/-- R111: the loop of SETF gives the buffer bits of its chunks the bits of the value, and no others. -/
theorem bufferBit_injectChunks (hp : s.params.wf = true) (ht : Tiles e n cs) (he : e ≤ 32 * 257 + 31)
    (h : injectChunks v cs s = some s') {p : Nat} (hpos : p / 8 < 2 ^ s.params.addrW) :
    bufferBit s' p = if p < e ∧ e ≤ p + n then some (v.getLsbD (e - 1 - p)) else bufferBit s p := by
  induction cs generalizing n s with
  | nil =>
    obtain rfl : n = 0 := ht
    cases h
    rw [if_neg (by omega)]
  | cons c rest ih =>
    obtain ⟨rfl, hlies, hrest⟩ := ht
    obtain ⟨q, hq, h⟩ := injectChunks_cons_eq_some.1 h
    rw [ih (by simpa using hp) hrest h (by simpa using hpos), bufferBit_injectOne hp hlies he hq hpos]
    by_cases hlow : p < e ∧ e ≤ p + c.sig
    · rw [if_pos hlow, if_pos (by omega)]
    · rw [if_neg hlow]
      exact if_congr (by omega) rfl rfl

/-- R116: the buffer bits of `t` are those of `s` but for the field of `d`, which has taken VAL. -/
def FieldTakesVal (s t : State) (d : Descriptor) : Prop :=
  ∀ p, p / 8 < 2 ^ s.params.addrW →
    bufferBit t p =
      if d.start ≤ p ∧ p < d.stop then some (s.val.getLsbD (d.bitWidth.toNat - 1 - (p - d.start))) else bufferBit s p

/-- R111, R116: everything SETF does on a field it accepts and whose words the caller owns. -/
theorem exists_setf (hp : s.params.wf = true) (ha : Accepts s f d) (ho : OwnsField s d) :
    ∃ t, exec (.setf f) s = .next t ∧ t = { s with mem := t.mem, status := 0x000, memLog := t.memLog } ∧
      FieldTakesVal s t d := by
  have hpass := validate_eq_passed.2 ha
  obtain ⟨s', hx⟩ := Option.isSome_iff_exists.1 ((isSome_injectField_iff ha.valid).2 ho)
  refine ⟨completeWithoutResult s', execSetf_eq_next.2 (.inr ⟨d, s', hpass, hx, rfl⟩), ?_, fun p hpos => ?_⟩
  · rw [injectChunks_frame hx]
    rfl
  · have hbits := bufferBit_injectChunks hp (Descriptor.tiles ha.valid) (Descriptor.stop_le ha.valid) hx hpos
    have hstop : d.stop = d.start + d.bitWidth.toNat := rfl
    refine (show bufferBit (completeWithoutResult s') p = _ from hbits).trans ?_
    by_cases hin : d.start ≤ p ∧ p < d.stop
    · have hm : d.stop - 1 - p = d.bitWidth.toNat - 1 - (p - d.start) := by omega
      rw [if_pos hin, if_pos (by omega), hm, getLsbD_fieldValue, decide_eq_true (by omega), Bool.true_and]
    · rw [if_neg hin, if_neg (by omega)]

end Bits

end Sys2Proof.Machine
end

section
/-! GETF and SETF as a whole (R115 to R118): the result as a sum of buffer bits and as a cut from the touched words, and what
one command finds after another. -/

namespace Sys2Proof.Machine

variable {s t u : State} {f : BitVec 8} {d : Descriptor} {i : Instr}

/-! ## The result of GETF as a number (R115) -/

/-- The low bits of a number, by their weights. -/
theorem mod_two_pow_eq_sum (x n : Nat) : x % 2 ^ n = ∑ m ∈ Finset.range n, (x.testBit m).toNat * 2 ^ m := by
  induction n with
  | zero => simp [Nat.mod_one]
  | succ n ih => rw [Finset.sum_range_succ, ← ih, Nat.toNat_testBit, Nat.mod_pow_succ, Nat.mul_comm (2 ^ n)]

theorem HoldsField.testBit {r : Value} (h : HoldsField s d r) (m : Nat) :
    r.toNat.testBit m = (decide (m < d.bitWidth.toNat) && decide (bufferBit s (d.stop - 1 - m) = some true)) := by
  rw [BitVec.testBit_toNat, h m]

theorem HoldsField.toNat_lt {r : Value} (h : HoldsField s d r) : r.toNat < 2 ^ d.bitWidth.toNat := by
  refine Nat.lt_pow_two_of_testBit _ fun m hm => ?_
  rw [h.testBit, decide_eq_false (by omega), Bool.false_and]

/-- Settles O40: the bits of RES are those of `HoldsField`; their sum, turned round, counts them from the first bit on. -/
theorem getfReadsTheFieldBits : Obligations.GetfReadsTheFieldBits := by
  intro s f d ha ho
  obtain ⟨t, ht, hframe, hres⟩ := exists_getf ha ho
  refine ⟨t, ht, hframe, ?_⟩
  rw [← Nat.mod_eq_of_lt hres.toNat_lt, mod_two_pow_eq_sum, ← Finset.sum_range_reflect]
  refine Finset.sum_congr rfl fun i hi => ?_
  have hlt : i < d.bitWidth.toNat := Finset.mem_range.1 hi
  have hstop : d.stop = d.start + d.bitWidth.toNat := rfl
  have hpos : d.stop - 1 - (d.bitWidth.toNat - 1 - i) = d.start + i := by omega
  rw [hres.testBit, hpos, decide_eq_true (by omega), Bool.true_and]
  exact congrArg (· * 2 ^ (d.bitWidth.toNat - 1 - i))
    (apply_ite Bool.toNat (bufferBit s (d.start + i) = some true) true false)

/-! ## The touched words as one number (R115) -/

theorem isSome_wordsValue {n j : Nat} (x : Nat) (h : ∀ k < n, (quadAt s (wordAddr s (j + k))).isSome = true) :
    (wordsValue s n j x).isSome = true := by
  induction n generalizing j x with
  | zero => rfl
  | succ n ih =>
    obtain ⟨q, hq⟩ := Option.isSome_iff_exists.1 (h 0 (by omega))
    simp only [wordsValue, show quadAt s (wordAddr s j) = some q from hq]
    refine ih _ fun k hk => ?_
    rw [Nat.add_right_comm]
    exact h (k + 1) (by omega)

/-- The bits of the number of `n` words are the buffer bits of these words, the last one least significant. -/
theorem testBit_wordsValue {n j x y : Nat} (h : wordsValue s n j x = some y) (m : Nat) :
    y.testBit m = if m < 32 * n then decide (bufferBit s (32 * (j + n) - 1 - m) = some true)
      else x.testBit (m - 32 * n) := by
  induction n generalizing j x with
  | zero =>
    cases h
    rfl
  | succ n ih =>
    rw [wordsValue] at h
    cases hq : quadAt s (wordAddr s j) with
    | none => simp [hq] at h
    | some q =>
      rw [hq] at h
      rw [ih h, Nat.mul_comm x, Nat.testBit_two_pow_mul_add _ (be32 q).isLt, BitVec.testBit_toNat]
      by_cases hlow : m < 32 * n
      · have hpos : 32 * (j + 1 + n) = 32 * (j + (n + 1)) := by omega
        rw [if_pos hlow, if_pos (by omega), hpos]
      rw [if_neg hlow]
      by_cases hword : m < 32 * (n + 1)
      · have hpos : 32 * (j + (n + 1)) - 1 - m = 32 * j + (31 - (m - 32 * n)) := by omega
        have hbit : 31 - (31 - (m - 32 * n)) = m - 32 * n := by omega
        rw [if_pos (by omega), if_pos hword, hpos, bufferBit_of_quadAt hq (by omega), hbit]
        simp
      · rw [if_neg (by omega), if_neg hword, Nat.sub_sub, Nat.mul_succ]

/-- Settles O41: bit by bit, RES and the number of the words are the same buffer bits. -/
theorem getfCutsTheFieldFromTheWords : Obligations.GetfCutsTheFieldFromTheWords := by
  intro s f d ha ho
  obtain ⟨t, ht, -, hres⟩ := exists_getf ha ho
  have hquads : ∀ k < d.nwords, (quadAt s (wordAddr s (d.wordIndex.toNat + k))).isSome = true :=
    fun k hk => isSome_quadAt_iff.2 (ho k hk)
  obtain ⟨x, hx⟩ := Option.isSome_iff_exists.1 (isSome_wordsValue 0 hquads)
  refine ⟨t, x, ht, hx, Nat.eq_of_testBit_eq fun m => ?_⟩
  rw [hres.testBit, Nat.testBit_mod_two_pow, Nat.testBit_shiftRight, testBit_wordsValue hx]
  by_cases hm : m < d.bitWidth.toNat
  · have hn := nwords_of_pos (d := d) (by omega)
    have hstop : d.stop = 32 * d.wordIndex.toNat + d.bitOffset.toNat + d.bitWidth.toNat := rfl
    rw [if_pos (by omega)]
    congr 4
    omega
  · simp [hm]

/-- Settles O42: what `exists_setf` says of SETF. -/
theorem setfWritesTheFieldBits : Obligations.SetfWritesTheFieldBits := fun _ _ _ => exists_setf

/-! ## One command after another (R117, R118) -/

theorem validate_of_exec (h : exec i s = .next t) (f : BitVec 8) : validate f t = validate f s := by
  rw [exec_frame h]
  exact validate_congr rfl rfl rfl rfl

theorem accepts_of_exec (h : exec i s = .next t) : Accepts t f d ↔ Accepts s f d := by
  rw [← validate_eq_passed, validate_of_exec h, validate_eq_passed]

theorem wrapAddr_of_exec (h : exec i s = .next t) : wrapAddr t = wrapAddr s := by
  rw [exec_frame h]
  rfl

theorem wordAddr_of_exec (h : exec i s = .next t) : wordAddr t = wordAddr s := by
  rw [exec_frame h]
  rfl

theorem bufBase_of_exec (h : exec i s = .next t) : t.bufBase = s.bufBase := by rw [exec_frame h]

/-- SETF keeps the set of bytes the caller owns. -/
theorem isSome_byteAt_setf (h : exec (.setf f) s = .next t) (a : Nat) : (t.byteAt a).isSome = (s.byteAt a).isSome := by
  rcases execSetf_eq_next.1 h with ⟨c, -, rfl⟩ | ⟨d, s', -, hx, rfl⟩
  · rfl
  · exact injectChunks_isSome hx a

theorem byteAt_getf (h : exec (.getf f) s = .next t) : t.byteAt = s.byteAt := by
  rw [execGetf_frame h]
  rfl

theorem bufferBit_getf (h : exec (.getf f) s = .next t) : bufferBit t = bufferBit s := by
  rw [execGetf_frame h]
  rfl

theorem ownsField_of_exec (h : exec i s = .next t) (hsome : ∀ a, (t.byteAt a).isSome = (s.byteAt a).isSome) :
    OwnsField t d ↔ OwnsField s d := by
  simp only [OwnsField, hsome, wrapAddr_of_exec h, wordAddr_of_exec h]

/-- The bit that SETF has left in place `m` of the field. -/
theorem FieldTakesVal.bufferBit_eq (h : FieldTakesVal s t d) (hp : s.params.wf = true) (hv : d.valid = true) {m : Nat}
    (hm : m < d.bitWidth.toNat) : bufferBit t (d.stop - 1 - m) = some (s.val.getLsbD m) := by
  have hreach := reach_lt hp
  have hle := Descriptor.stop_le hv
  have hstop : d.stop = d.start + d.bitWidth.toNat := rfl
  have hplace : d.bitWidth.toNat - 1 - (d.stop - 1 - m - d.start) = m := by omega
  rw [h _ (by omega), if_pos (by omega), hplace]

/-- Settles O47: GETF finds the bits that SETF has left. -/
theorem setfThenGetfRoundTrip : Obligations.SetfThenGetfRoundTrip := by
  intro s f d hp ha ho
  obtain ⟨t, ht, -, hbits⟩ := exists_setf hp ha ho
  obtain ⟨u, hu, hframe, hres⟩ :=
    exists_getf ((accepts_of_exec ht).2 ha) ((ownsField_of_exec ht (isSome_byteAt_setf ht)).2 ho)
  refine ⟨t, u, ht, hu, by rw [hframe], Nat.eq_of_testBit_eq fun m => ?_⟩
  rw [hres.testBit, Nat.testBit_mod_two_pow, BitVec.testBit_toNat]
  by_cases hm : m < d.bitWidth.toNat
  · simp [hbits.bufferBit_eq hp ha.valid hm]
  · simp [hm]

/-- GETF in the state after a GETF answers the same result. -/
theorem getf_after_getf (h : exec (.getf f) s = .next t) :
    ∃ u, exec (.getf f) t = .next u ∧ u.res = t.res ∧ u.status = t.status := by
  rcases exec_engine_eq_next (.inl rfl) h with ⟨c, hv, rfl⟩ | ⟨d, -, ha, ho, -⟩
  · exact ⟨_, exec_engine_of_failed (.inl rfl) ((validate_of_exec h f).trans hv), rfl, rfl⟩
  · obtain ⟨t', ht', hframe, hres⟩ := exists_getf ha ho
    obtain rfl : t' = t := Host.Outcome.next.inj (ht'.symm.trans h)
    have hsome (a : Nat) : (t'.byteAt a).isSome = (s.byteAt a).isSome := by rw [byteAt_getf h]
    obtain ⟨u, hu, hframe', hres'⟩ := exists_getf ((accepts_of_exec h).2 ha) ((ownsField_of_exec h hsome).2 ho)
    rw [HoldsField, bufferBit_getf h] at hres'
    exact ⟨u, hu, HoldsField.unique hres' hres, by rw [hframe', hframe]⟩

/-- A byte, or that there is none, is known by its bits. -/
theorem byte_eq_of_bits_eq {o o' : Option Byte} (h : ∀ m < 8, o.map (·.getLsbD m) = o'.map (·.getLsbD m)) : o = o' := by
  cases o with
  | none => simpa [eq_comm] using h 0 (by decide)
  | some b =>
    cases o' with
    | none => simpa using h 0 (by decide)
    | some b' => exact congrArg some (BitVec.eq_of_getLsbD_eq fun m hm => by simpa using h m hm)

theorem bufferBit_eq_map (s : State) (p : Nat) :
    bufferBit s p = (s.byteAt (wrapAddr s (s.bufBase.toNat + p / 8))).map (·.getLsbD (7 - p % 8)) := by
  rw [bufferBit]
  cases s.byteAt (wrapAddr s (s.bufBase.toNat + p / 8)) <;> rfl

/-- A command that leaves the eight bits of a byte of the buffer leaves the byte. -/
theorem byteAt_eq_of_bufferBit_eq {x : Nat} (h : exec i s = .next t)
    (hbits : ∀ k < 8, bufferBit t (8 * x + k) = bufferBit s (8 * x + k)) :
    t.byteAt (wrapAddr s (s.bufBase.toNat + x)) = s.byteAt (wrapAddr s (s.bufBase.toNat + x)) := by
  refine byte_eq_of_bits_eq fun m hm => ?_
  have hbyte : (8 * x + (7 - m)) / 8 = x := by omega
  have hbit : 7 - (8 * x + (7 - m)) % 8 = m := by omega
  simpa only [bufferBit_eq_map, hbyte, hbit, bufBase_of_exec h, wrapAddr_of_exec h] using hbits (7 - m) (by omega)

/-- SETF in the state after the same SETF leaves every byte as it is. -/
theorem setf_after_setf (hp : s.params.wf = true) (h : exec (.setf f) s = .next t) :
    ∃ u, exec (.setf f) t = .next u ∧ ∀ a, u.byteAt a = t.byteAt a := by
  rcases exec_engine_eq_next (.inr rfl) h with ⟨c, hv, rfl⟩ | ⟨d, -, ha, ho, -⟩
  · exact ⟨_, exec_engine_of_failed (.inr rfl) ((validate_of_exec h f).trans hv), fun _ => rfl⟩
  · obtain ⟨t', ht', hframe, hbits⟩ := exists_setf hp ha ho
    obtain rfl : t' = t := Host.Outcome.next.inj (ht'.symm.trans h)
    have hat := (accepts_of_exec h).2 ha
    have hparams := exec_params h
    have hval : t'.val = s.val := by rw [hframe]
    obtain ⟨u, hu, -, hbits'⟩ :=
      exists_setf (hparams ▸ hp) hat ((ownsField_of_exec h (isSome_byteAt_setf h)).2 ho)
    have hsame : ∀ p, p / 8 < 2 ^ s.params.addrW → bufferBit u p = bufferBit t' p := by
      intro p hpos
      rw [hbits' p (hparams ▸ hpos), hbits p hpos, hval]
      split <;> rfl
    refine ⟨u, hu, fun a => ?_⟩
    by_cases hout : OutsideField t' d a
    · exact byteAt_setf_other hat.selected hu hout
    · obtain ⟨k, hk, b, hb, rfl⟩ : ∃ k < d.nwords, ∃ b < 4, a = wrapAddr t' (wordAddr t' (d.wordIndex.toNat + k) + b) := by
        simpa [OutsideField] using hout
      obtain ⟨hj, -⟩ := ha.word_reach hk
      have hreach := reach_lt hp
      rw [wrapAddr_wordAddr]
      exact byteAt_eq_of_bufferBit_eq hu fun k hk => hsame _ (by omega)

/-- Settles O48. -/
theorem repeatedCommandsAreIdempotent : Obligations.RepeatedCommandsAreIdempotent :=
  fun _ _ _ hp => ⟨getf_after_getf, setf_after_setf hp⟩

end Sys2Proof.Machine
end

section
/-! INDEX_RANGE over all values of NFIELDS (R145), and the machine's invariant (R5, R19, R26, R40, R143): what each kind of
transaction does to the parts of the invariant, and that every step keeps it. -/

namespace Sys2Proof.Machine

/-! ## The index check (R145) -/

section IndexCheck

variable {i : Instr} {f : BitVec 8} {s : State} {d : Descriptor}

/-- An engine command completes on a field that it accepts and whose words the caller owns. -/
theorem exec_engine_completes (hi : i = .getf f ∨ i = .setf f) (ha : Accepts s f d) (ho : OwnsField s d) :
    ∃ t rv, exec i s = .next t ∧ t.status = statusOk rv := by
  obtain ⟨t, ht⟩ := exec_engine_of_owns hi ha ho
  rcases exec_engine_eq_next hi ht with ⟨c, hfail, -⟩ | ⟨-, rv, -, -, hst⟩
  · simp [validate_eq_passed.2 ha] at hfail
  · exact ⟨t, rv, ht, hst⟩

/-- Settles O34: the first two clauses are the failed index check; in the third an 8-bit index is below NFIELDS, so that the
command is accepted. -/
theorem indexRangeAtTheEndsOfNfields : Obligations.IndexRangeAtTheEndsOfNfields := by
  intro s f i hi hb
  have hrange (hn : s.nfields.toNat ≤ f.toNat) : exec i s = .next { s with status := 0x021 } :=
    exec_engine_of_failed hi (validate_of_index_range hb hn)
  refine ⟨hrange, fun h0 => hrange (by simp [h0]), fun d hn hd hw ho hlenchk howns => ?_⟩
  have hindex : f.toNat < s.nfields.toNat := f.isLt.trans_le hn
  have haccepts : Accepts s f d := ⟨hb, hindex, hd, hw, ho, fun hc => absurd (hlenchk.symm.trans hc) Bool.false_ne_true⟩
  obtain ⟨t, rv, ht, hst⟩ := exec_engine_completes hi haccepts howns
  exact ⟨t, ht, by rw [hst, statusCode_statusOk]⟩

end IndexCheck

/-! ## STATUS holds a legal word (R143) -/

theorem statusOk_mem_legalStatus (rv : Bool) : statusOk rv ∈ legalStatus := by
  cases rv <;> decide

theorem statusFailed_mem_legalStatus (c : Cause) : statusFailed c ∈ legalStatus := by
  cases c <;> decide

theorem status_mem_legalStatus_of_exec {i : Instr} {s t : State} (h : exec i s = .next t) : t.status ∈ legalStatus := by
  rcases exec_status h with ⟨rv, hst⟩ | ⟨-, c, -, hst⟩
  · exact hst ▸ statusOk_mem_legalStatus rv
  · exact hst ▸ statusFailed_mem_legalStatus c

/-! ## The buffer memory keeps its form and its address range (R40) -/

/-- The part of the invariant that speaks of the buffer memory. -/
def State.MemSound (s : State) : Prop := s.mem.wf = true ∧ ∀ c ∈ s.mem, c.1 < 2 ^ s.params.addrW

namespace State.MemSound

variable {d : Descriptor} {n : Nat} {s s' t : State}

theorem of_eq (h : s.MemSound) (hp : t.params = s.params) (hm : t.mem = s.mem) : t.MemSound := by
  rwa [State.MemSound, hp, hm]

theorem setByte (h : s.MemSound) (a : Nat) (b : Byte) : (setByte a b s).MemSound := by
  obtain ⟨hform, hrange⟩ := h
  exact ⟨wf_setByte a b hform, lt_of_mem_setByte hrange⟩

theorem injectChunks {v : Value} {cs : List Chunk} (h : s.MemSound) (hx : injectChunks v cs s = some s') :
    s'.MemSound := by
  obtain ⟨hform, hrange⟩ := h
  obtain ⟨hparams, -⟩ := injectChunks_registers hx
  exact ⟨injectChunks_wf hform hx, hparams ▸ injectChunks_lt hrange hx⟩

/-- Only SETF writes memory, and only through its loop. -/
theorem exec {i : Instr} (h : s.MemSound) (hx : exec i s = .next t) : t.MemSound := by
  by_cases hs : ∃ f, i = .setf f
  · obtain ⟨f, rfl⟩ := hs
    rcases execSetf_eq_next.1 hx with ⟨c, -, rfl⟩ | ⟨d, s', -, hinj, rfl⟩
    · exact h
    · exact (h.injectChunks hinj :)
  · obtain ⟨-, hmem, -⟩ := commandsChangeOnlyTheirState i s t hx
    exact h.of_eq (exec_params hx) (hmem (not_exists.1 hs))

theorem injectPrefix (h : s.MemSound) (hx : injectPrefix d n s = some s') : s'.MemSound := by
  unfold Machine.injectPrefix at hx
  split at hx
  · rename_i s1 hpairs
    have h1 := h.injectChunks hpairs
    split_ifs at hx
    · exact h1.of_eq (by rw [loadNext_frame hx]) (by rw [loadNext_frame hx])
    · cases hx
      exact h1
  · cases hx

end State.MemSound

/-- R162: what a command abandoned after `n` accesses has done when it answers a next state. -/
theorem abandonCommand_eq_next {i : Option Instr} {n : Nat} {s s' : State} (h : abandonCommand i n s = .next s') :
    s' = s ∨ (∃ d, extractPrefix d n s = some s') ∨ ∃ d, injectPrefix d n s = some s' := by
  unfold abandonCommand at h
  split at h
  case h_1 =>
    split at h
    · cases h; exact .inl rfl
    · cases h
    · split at h
      · rename_i d _ _ _ hx
        cases h; exact .inr (.inl ⟨d, hx⟩)
      · cases h
  case h_2 =>
    split at h
    · cases h; exact .inl rfl
    · cases h
    · split at h
      · rename_i d _ _ _ hx
        cases h; exact .inr (.inr ⟨d, hx⟩)
      · cases h
  case h_3 => cases h; exact .inl rfl

theorem State.MemSound.abandonCommand {i : Option Instr} {n : Nat} {s s' : State} (h : s.MemSound)
    (hx : abandonCommand i n s = .next s') : s'.MemSound := by
  rcases abandonCommand_eq_next hx with rfl | ⟨d, hreads⟩ | ⟨d, hwrites⟩
  · exact h
  · exact h.of_eq (by rw [extractPrefix_frame hreads]) (by rw [extractPrefix_frame hreads])
  · exact h.injectPrefix hwrites

/-! ## Everything a step can do -/

/-- `Performs x u t`: the transaction `x`, taken from the port of a state of which `u` is left, ends in `t`. -/
inductive Performs : Transaction → State → State → Prop where
  | command {reg : BitVec 9} {w : Word} {i : Instr} {u t : State} (hr : regAt reg = .cmd) (hd : decode w = .ok i)
      (h : exec i u = .next t) : Performs (.hostWrite reg w) u t
  | illegal {reg : BitVec 9} {w : Word} {e : IllegalWord} {u : State} (hr : regAt reg = .cmd) (hd : decode w = .error e) :
      Performs (.hostWrite reg w) u (raiseInvalidArgument .illegalCmd u)
  | write {reg : BitVec 9} {d : Word} {u : State} (hr : regAt reg ≠ .cmd) :
      Performs (.hostWrite reg d) u (writeReg (regAt reg) d u)
  | read {reg : BitVec 9} {u : State} : Performs (.hostRead reg) u (hostRead reg u)
  | store {addr : BitVec 32} {b : Byte} {u : State} : Performs (.callerStore addr b) u (setByte addr.toNat b u)
  | reset {u : State} : Performs .reset u (resetRegisters u)
  | resetDuring {w : Word} {n : Nat} {u u' : State} (h : abandonCommand (decode w).toOption n u = .next u') :
      Performs (.resetDuring w n) u (resetRegisters u')

/-- R13, R160: a step that answers has waited, or has performed the first transaction of the port. -/
theorem step_eq_next {s t : State} (h : step s = .next t) :
    t = s ∨ ∃ x rest, s.port = x :: rest ∧ Performs x { s with port := rest } t := by
  cases hp : s.port with
  | nil => exact .inl (by simpa [step_idle hp, eq_comm] using h)
  | cons x rest =>
    refine .inr ⟨x, rest, rfl, ?_⟩
    cases x with
    | hostWrite reg d =>
      by_cases hr : regAt reg = .cmd
      · cases hd : decode d with
        | ok i => exact .command hr hd ((step_command hp hr hd).symm.trans h)
        | error e => cases (step_illegal hp hr hd).symm.trans h; exact .illegal hr hd
      · cases (step_hostWrite hp hr).symm.trans h; exact .write hr
    | hostRead reg => cases (step_hostRead hp).symm.trans h; exact .read
    | callerStore addr b => cases (step_callerStore hp).symm.trans h; exact .store
    | reset => cases (step_reset hp).symm.trans h; exact .reset
    | resetDuring w n =>
      obtain ⟨u', hu', rfl⟩ := resetDuringCommand_eq_next.1 ((step_resetDuring hp).symm.trans h)
      exact .resetDuring hu'

/-! ## The invariant -/

namespace State.Inv

variable {s t : State}

theorem params_wf (h : s.Inv) : s.params.wf = true := by
  obtain ⟨hparams, -⟩ := h
  exact hparams

theorem status_mem (h : s.Inv) : s.status ∈ legalStatus := by
  obtain ⟨-, hst, -⟩ := h
  exact hst

theorem memSound (h : s.Inv) : s.MemSound := by
  obtain ⟨-, -, -, hform, hrange, -⟩ := h
  exact ⟨hform, hrange⟩

/-- A change of STATUS and memory keeps the invariant where it keeps the parts of it that speak of these two. -/
theorem of_status_mem (h : s.Inv) (hst : t.status ∈ legalStatus) (hm : t.MemSound) (hp : t.params = s.params)
    (hb : t.bufBase = s.bufBase) (hd : t.dt = s.dt) : t.Inv := by
  obtain ⟨hparams, -, hbase, -, -, hdt⟩ := h
  obtain ⟨hform, hrange⟩ := hm
  exact ⟨hp ▸ hparams, hst, by rwa [hb, hp], hform, hrange, by rwa [hd]⟩

theorem exec {i : Instr} (h : s.Inv) (hx : exec i s = .next t) : t.Inv :=
  h.of_status_mem (status_mem_legalStatus_of_exec hx) (h.memSound.exec hx) (exec_params hx) (bufBase_of_exec hx)
    (exec_dt hx)

theorem raiseInvalidArgument (h : s.Inv) (c : Cause) : (raiseInvalidArgument c s).Inv :=
  h.of_status_mem (statusFailed_mem_legalStatus c) h.memSound rfl rfl rfl

theorem setByte (h : s.Inv) (a : Nat) (b : Byte) : (setByte a b s).Inv :=
  h.of_status_mem h.status_mem (h.memSound.setByte a b) rfl rfl rfl

/-- R26, R28: an entry of the descriptor RAM is written in its place, at an 8-bit index. -/
theorem setDescriptor (h : s.Inv) (i : BitVec 8) (d : Descriptor) : (setDescriptor i d s).Inv := by
  obtain ⟨hparams, hst, hbase, hform, hrange, hdt, hindex⟩ := h
  refine ⟨hparams, hst, hbase, hform, hrange, rising_assocSet _ _ hdt, fun e he => ?_⟩
  rcases mem_assocSet he with rfl | he
  · exact i.isLt
  · exact hindex e he

/-- R19: BUF_BASE keeps the low `ADDR_W` bits of what is written. -/
theorem writeBufBase (h : s.Inv) (d : Word) : (writeReg .bufBase d s).Inv := by
  obtain ⟨hparams, hst, -, hmem⟩ := h
  refine ⟨hparams, hst, ?_, hmem⟩
  exact (toNat_bufBaseOf s.params d).trans_lt (Nat.mod_lt _ (Nat.two_pow_pos _))

/-- Of what the invariant speaks of, a HostWrite changes BUF_BASE and DT alone. -/
theorem writeReg (h : s.Inv) (r : Reg) (d : Word) : (writeReg r d s).Inv := by
  cases r with
  | bufBase => exact h.writeBufBase d
  | dt i => exact h.setDescriptor i _
  | _ => exact h

/-- R35: reset makes every part of the invariant true again but those that speak of the parameters and of memory. -/
theorem resetRegisters (hp : s.params.wf = true) (hm : s.MemSound) : (resetRegisters s).Inv := by
  obtain ⟨hform, hrange⟩ := hm
  exact ⟨hp, statusOk_mem_legalStatus false, Nat.two_pow_pos _, hform, hrange, rfl, fun e he => by cases he⟩

theorem performs {x : Transaction} (h : s.Inv) (hx : Performs x s t) : t.Inv := by
  cases hx with
  | command _ _ hcmd => exact h.exec hcmd
  | illegal _ _ => exact h.raiseInvalidArgument _
  | write _ => exact h.writeReg _ _
  | read => exact h
  | store => exact h.setByte _ _
  | reset => exact resetRegisters h.params_wf h.memSound
  | resetDuring habandon =>
    refine resetRegisters ?_ (h.memSound.abandonCommand habandon)
    rw [abandonCommand_frame habandon]
    exact h.params_wf

end State.Inv

/-- Settles O52: what is pending in the port is no part of the invariant, and the transaction performed keeps it. -/
theorem everyStepKeepsTheStateSound : Obligations.EveryStepKeepsTheStateSound := by
  intro s t hs h
  rcases step_eq_next h with rfl | ⟨x, rest, -, hx⟩
  · exact hs
  · have htaken : State.Inv { s with port := rest } := hs
    exact htaken.performs hx

end Sys2Proof.Machine
end

section
/-! R53, R162, U14: a reset during GETF or SETF. The accesses made before the reset are the first of those the whole command
makes; SETF's pair of accesses to a chunk's word is finished for the chunks before the reset, and no later word is written. -/

namespace Sys2Proof.Machine

/-- Settles O21. -/
theorem stepWaitsForATransaction : Obligations.StepWaitsForATransaction := fun _ => step_idle

/-! ## The first accesses of a loop (R53) -/

/-- On the memory port, what leads from `s` to `t` is the first `n` transactions of what leads from `s` to `u`. -/
def LogsFirst (n : Nat) (s u t : State) : Prop := ∃ l, u.memLog = s.memLog ++ l ∧ t.memLog = s.memLog ++ l.take n

namespace LogsFirst

variable {n : Nat} {s s' u t : State}

theorem zero {l : List MemEvent} (h : u.memLog = s.memLog ++ l) : LogsFirst 0 s u s := ⟨l, h, by simp⟩

theorem refl (n : Nat) (s : State) : LogsFirst n s s s := ⟨[], by simp⟩

/-- Transactions that both have made come first. -/
theorem after {es : List MemEvent} (h : LogsFirst n s' u t) (hes : s'.memLog = s.memLog ++ es) :
    LogsFirst (es.length + n) s u t := by
  obtain ⟨l, hu, ht⟩ := h
  refine ⟨es ++ l, by rw [hu, hes, List.append_assoc], ?_⟩
  rw [ht, hes, List.append_assoc, List.take_length_add_append]

theorem memLog_eq (h : LogsFirst n s u t) : t.memLog = s.memLog ++ (u.memLog.drop s.memLog.length).take n := by
  obtain ⟨l, hu, ht⟩ := h
  rw [ht, hu, List.drop_left]

end LogsFirst

section FirstAccesses

variable {s u t : State} {f : BitVec 8} {d : Descriptor} {c : Chunk} {cs : List Chunk} {v : Value} {n : Nat}

/-- GETF makes one access a chunk: its first `n` accesses are those of its first `n` chunks. -/
theorem exists_extractChunks_take {r r' : Value} (h : extractChunks cs r s = some (r', u)) (n : Nat) :
    ∃ r'' t, extractChunks (cs.take n) r s = some (r'', t) ∧ LogsFirst n s u t := by
  induction cs generalizing n r s with
  | nil =>
    cases h
    exact ⟨r', u, by simp, .refl n u⟩
  | cons c rest ih =>
    cases n with
    | zero =>
      obtain ⟨l, hlog, -⟩ := extractChunks_accesses h
      exact ⟨r, s, rfl, .zero hlog⟩
    | succ n =>
      obtain ⟨q, hq, hrest⟩ := extractChunks_cons_eq_some.1 h
      obtain ⟨r'', t, ht, hlog⟩ := ih hrest n
      have hfirst := hlog.after (logEvent_memLog ..)
      exact ⟨r'', t, extractChunks_cons_eq_some.2 ⟨q, hq, ht⟩, Nat.add_comm n 1 ▸ hfirst⟩

/-- The first `n` accesses of SETF's loop: both of each of the first `n / 2` chunks, and where `n` is odd the read of the
next one. -/
def injectAccesses (v : Value) (cs : List Chunk) (n : Nat) (s : State) : Option State :=
  (injectChunks v (cs.take (n / 2)) s).bind fun m => if n % 2 = 1 then loadNext (cs.drop (n / 2)) m else some m

theorem injectPrefix_eq_injectAccesses (d : Descriptor) (n : Nat) (s : State) :
    injectPrefix d n s = injectAccesses (fieldValue d.bitWidth.toNat s.val) d.chunks n s := by
  unfold injectPrefix injectAccesses
  cases injectChunks (fieldValue d.bitWidth.toNat s.val) (d.chunks.take (n / 2)) s <;> rfl

theorem injectAccesses_nil (v : Value) (n : Nat) (s : State) : injectAccesses v [] n s = some s := by
  simp [injectAccesses, loadNext]

theorem injectAccesses_zero (v : Value) (cs : List Chunk) (s : State) : injectAccesses v cs 0 s = some s := by
  simp [injectAccesses]

/-- A reset between the read and the write of a chunk's word. -/
theorem injectAccesses_one (v : Value) (rest : List Chunk) {q : Quad} (hq : quadAt s (wordAddr s c.word) = some q) :
    injectAccesses v (c :: rest) 1 s = some (logEvent (.read (wordAddr s c.word) q) s) := by
  have hload := loadWord_eq_some.2 ⟨q, hq, rfl, rfl⟩
  simp [injectAccesses, loadNext, hload]

/-- One round of SETF's loop, as an equation. -/
theorem injectChunks_cons_eq_bind (v : Value) (c : Chunk) (rest : List Chunk) (s : State) :
    injectChunks v (c :: rest) s =
      (quadAt s (wordAddr s c.word)).bind fun q => injectChunks v rest (injectOne v c q s) :=
  Option.ext fun u => by rw [injectChunks_cons_eq_some, Option.bind_eq_some_iff]

/-- The two accesses of the first chunk, then those of the others. -/
theorem injectAccesses_cons (v : Value) (c : Chunk) (rest : List Chunk) (n : Nat) (s : State) :
    injectAccesses v (c :: rest) (n + 2) s =
      (quadAt s (wordAddr s c.word)).bind fun q => injectAccesses v rest n (injectOne v c q s) := by
  have hhalf : (n + 2) / 2 = n / 2 + 1 := by omega
  simp only [injectAccesses, hhalf, Nat.add_mod_right, List.take_succ_cons, List.drop_succ_cons, injectChunks_cons_eq_bind,
    Option.bind_assoc]

/-- SETF makes two accesses a chunk, in the order of the chunks. -/
theorem exists_injectAccesses (h : injectChunks v cs s = some u) (n : Nat) :
    ∃ t, injectAccesses v cs n s = some t ∧ LogsFirst n s u t := by
  induction cs generalizing n s with
  | nil =>
    cases h
    exact ⟨u, injectAccesses_nil v n u, .refl n u⟩
  | cons c rest ih =>
    obtain ⟨q, hq, hrest⟩ := injectChunks_cons_eq_some.1 h
    match n with
    | 0 =>
      obtain ⟨l, hlog, -⟩ := injectChunks_accesses h
      exact ⟨s, injectAccesses_zero .., .zero hlog⟩
    | 1 =>
      obtain ⟨l, hlog, -⟩ := injectChunks_accesses hrest
      have hwrite : u.memLog = (logEvent (.read (wordAddr s c.word) q) s).memLog ++
          .write (wordAddr s c.word) (bytesBe32 (mergeChunk c v (be32 q))) :: l := by simp [hlog]
      have hfirst := (LogsFirst.zero hwrite).after (logEvent_memLog ..)
      exact ⟨_, injectAccesses_one v rest hq, hfirst⟩
    | n + 2 =>
      obtain ⟨t, ht, hlog⟩ := ih hrest n
      have hfirst := hlog.after (injectOne_memLog ..)
      exact ⟨t, by rw [injectAccesses_cons, hq, Option.bind_some, ht], Nat.add_comm n 2 ▸ hfirst⟩

/-! ## The bytes after the first accesses of SETF (R162) -/

theorem injectChunks_append (v : Value) (cs ds : List Chunk) (s : State) :
    injectChunks v (cs ++ ds) s = (injectChunks v cs s).bind (injectChunks v ds) := by
  induction cs generalizing s with
  | nil => rfl
  | cons c rest ih => simp only [List.cons_append, injectChunks_cons_eq_bind, Option.bind_assoc, ih]

/-- An address that is no byte of a word of these chunks. -/
abbrev OutsideChunks (s : State) (cs : List Chunk) (a : Nat) : Prop :=
  ∀ c ∈ cs, ∀ b < 4, a ≠ wrapAddr s (wordAddr s c.word + b)

/-- The memory after the first `n` accesses is that after the first `n / 2` chunks: the read of one more does not change it. -/
theorem exists_byteAt_eq_of_injectAccesses (h : injectAccesses v cs n s = some t) :
    ∃ m, injectChunks v (cs.take (n / 2)) s = some m ∧ t.byteAt = m.byteAt := by
  obtain ⟨m, hm, hread⟩ := Option.bind_eq_some_iff.1 h
  refine ⟨m, hm, ?_⟩
  split_ifs at hread
  · rw [loadNext_frame hread]
    rfl
  · cases hread
    rfl

/-- A byte of no word written before the reset is as it was. -/
theorem byteAt_injectAccesses_of_unwritten (h : injectAccesses v cs n s = some t) {a : Nat}
    (ha : OutsideChunks s (cs.take (n / 2)) a) : t.byteAt a = s.byteAt a := by
  obtain ⟨m, hm, hmem⟩ := exists_byteAt_eq_of_injectAccesses h
  rw [hmem, byteAt_injectChunks_other hm ha]

/-- A byte of no word that is left to be written is as the whole loop leaves it. -/
theorem byteAt_injectAccesses_of_finished (h : injectAccesses v cs n s = some t) (hu : injectChunks v cs s = some u)
    {a : Nat} (ha : OutsideChunks s (cs.drop (n / 2)) a) : t.byteAt a = u.byteAt a := by
  obtain ⟨m, hm, hmem⟩ := exists_byteAt_eq_of_injectAccesses h
  rw [← List.take_append_drop (n / 2) cs, injectChunks_append, hm, Option.bind_some] at hu
  have hwrap : wrapAddr m = wrapAddr s := by rw [injectChunks_frame hm]; rfl
  have hword : wordAddr m = wordAddr s := by rw [injectChunks_frame hm]; rfl
  rw [hmem, byteAt_injectChunks_other hu (by simpa only [hwrap, hword] using ha)]

/-! ## The words of the first chunks and of the others (R104, R105) -/

/-- Chunk `k` lies in word `wi + k`. -/
theorem word_getElem_chunks (hv : d.valid = true) {k : Nat} (hk : k < d.chunks.length) :
    k < d.nwords ∧ d.chunks[k].word = d.wordIndex.toNat + k := by
  have hwords := map_word_chunks hv
  have hlen : d.chunks.length = d.nwords := by simpa using congrArg List.length hwords
  refine ⟨hlen ▸ hk, ?_⟩
  have hget := congrArg (fun l => l[k]?) hwords
  simpa [hk, hlen ▸ hk] using hget

theorem word_of_mem_take_chunks (hv : d.valid = true) (hc : c ∈ d.chunks.take n) :
    ∃ k < d.nwords, k < n ∧ c.word = d.wordIndex.toNat + k := by
  obtain ⟨k, hk, rfl⟩ := List.mem_take_iff_getElem.1 hc
  obtain ⟨hkn, hlen⟩ := lt_min_iff.1 hk
  obtain ⟨hkw, hword⟩ := word_getElem_chunks hv hlen
  exact ⟨k, hkw, hkn, hword⟩

theorem word_of_mem_drop_chunks (hv : d.valid = true) (hc : c ∈ d.chunks.drop n) :
    ∃ k < d.nwords, n ≤ k ∧ c.word = d.wordIndex.toNat + k := by
  obtain ⟨k, hk, rfl⟩ := List.mem_drop_iff_getElem.1 hc
  rw [Nat.add_comm] at hk
  obtain ⟨hkw, hword⟩ := word_getElem_chunks hv hk
  exact ⟨_, hkw, Nat.le_add_right .., hword⟩

/-- Two words within the engine's reach have no byte in common. -/
theorem byte_ne_of_word_ne (hp : s.params.wf = true) {i j b b' : Nat} (hi : i ≤ 257) (hj : j ≤ 257) (hb : b < 4)
    (hb' : b' < 4) (hne : i ≠ j) : wrapAddr s (wordAddr s i + b) ≠ wrapAddr s (wordAddr s j + b') := by
  have hreach := reach_lt hp
  intro heq
  rw [wrapAddr_wordAddr, wrapAddr_wordAddr] at heq
  have := wrapAddr_inj (by omega) (by omega) heq
  omega

end FirstAccesses

/-! ## The abandoned commands (R162) -/

section Abandoned

variable {s u : State} {f : BitVec 8} {d : Descriptor} {rest : List Transaction}

/-- R162: GETF abandoned after `n` accesses has made the first `n` of its reads. -/
theorem exists_abandon_getf (ha : Accepts s f d) (h : exec (.getf f) s = .next u) (n : Nat) :
    ∃ t, abandonCommand (some (.getf f)) n s = .next t ∧ t.mem = s.mem ∧ LogsFirst n s u t := by
  have hpass := validate_eq_passed.2 ha
  rcases execGetf_eq_next.1 h with ⟨c, hfail, -⟩ | ⟨e, r, u', hpass', hx, rfl⟩
  · simp [hpass] at hfail
  · cases hpass.symm.trans hpass'
    obtain ⟨r', t, ht, hlog⟩ := exists_extractChunks_take hx n
    have hmade : extractPrefix d n s = some t := by rw [extractPrefix, ht]
    refine ⟨t, by simp only [abandonCommand, hpass, hmade], ?_, hlog⟩
    rw [extractPrefix_frame hmade]

/-- R162: SETF abandoned after `n` accesses has made the first `n` of them, and memory is that of the words it has written. -/
theorem exists_abandon_setf (ha : Accepts s f d) (h : exec (.setf f) s = .next u) (n : Nat) :
    ∃ t, abandonCommand (some (.setf f)) n s = .next t ∧ LogsFirst n s u t ∧
      (∀ a, OutsideChunks s (d.chunks.drop (n / 2)) a → t.byteAt a = u.byteAt a) ∧
      (∀ a, OutsideChunks s (d.chunks.take (n / 2)) a → t.byteAt a = s.byteAt a) := by
  have hpass := validate_eq_passed.2 ha
  rcases execSetf_eq_next.1 h with ⟨c, hfail, -⟩ | ⟨e, u', hpass', hx, rfl⟩
  · simp [hpass] at hfail
  · cases hpass.symm.trans hpass'
    obtain ⟨t, ht, hlog⟩ := exists_injectAccesses hx n
    have hmade := (injectPrefix_eq_injectAccesses d n s).trans ht
    exact ⟨t, by simp only [abandonCommand, hpass, hmade], hlog,
      fun _ => byteAt_injectAccesses_of_finished ht hx, fun _ => byteAt_injectAccesses_of_unwritten ht⟩

/-! ## The step -/

/-- The same state with other transactions pending. -/
def State.withPort (rest : List Transaction) (s : State) : State := { s with port := rest }

theorem engineBlind_withPort (rest : List Transaction) : EngineBlind (State.withPort rest) where
  wordAddr_eq _ _ := rfl
  quadAt_eq _ _ := rfl
  logEvent_comm _ _ := rfl
  setQuad_comm _ _ _ := rfl
  raise_comm _ _ := rfl
  result_comm _ _ := rfl
  noResult_comm _ := rfl

/-- R14: what is pending is no part of what a command does. -/
theorem exec_engine_withPort {i : Instr} (hi : i = .getf f ∨ i = .setf f) (rest : List Transaction) (h : exec i s = .next u) :
    exec i (s.withPort rest) = .next (u.withPort rest) := by
  have hg := engineBlind_withPort rest
  rcases hi with rfl | rfl
  · exact (hg.execGetf rfl).trans (congrArg (mapNext _) h)
  · exact (hg.execSetf rfl fun _ _ => rfl).trans (congrArg (mapNext _) h)

/-- R162: the step abandons the command, whose accesses stay made, and then resets every register. -/
theorem step_resetDuring_encode {i : Instr} {n : Nat} {t : State}
    (hp : s.port = .resetDuring (encode i) n :: rest)
    (h : abandonCommand (some i) n (s.withPort rest) = .next t) :
    step s = .next (resetRegisters t) ∧ (resetRegisters t).RegistersReset ∧ t.params = s.params ∧ t.port = rest := by
  have hdecode : (decode (encode i)).toOption = some i := congrArg Except.toOption (decode_encode i)
  refine ⟨?_, ⟨rfl, rfl, rfl, rfl, rfl, rfl, rfl, fun _ => rfl⟩, ?_, ?_⟩
  · rw [step_resetDuring hp]
    exact resetDuringCommand_eq_next.2 ⟨t, hdecode ▸ h, rfl⟩
  · rw [abandonCommand_frame h]
    rfl
  · rw [abandonCommand_frame h]
    rfl

end Abandoned

/-- Settles O4: `exists_abandon_getf`, in the state from which the transaction has been taken. -/
theorem resetDuringGetfKeepsTheReads : Obligations.ResetDuringGetfKeepsTheReads := by
  intro s u f d n rest ha _ hu hp
  obtain ⟨t, ht, hmem, hlog⟩ := exists_abandon_getf (s := s.withPort rest) ha (exec_engine_withPort (.inl rfl) rest hu) n
  obtain ⟨hstep, hreset, hparams, hport⟩ := step_resetDuring_encode hp ht
  exact ⟨_, hstep, hreset, hparams, hport, hmem, hlog.memLog_eq⟩

/-- Settles O3: `exists_abandon_setf`, in the state from which the transaction has been taken; a word with `k < n / 2` has no
byte in common with the words left to be written. -/
theorem resetDuringSetfKeepsThePrefix : Obligations.ResetDuringSetfKeepsThePrefix := by
  intro s u f d n rest hwf ha _ hu hp
  obtain ⟨t, ht, hlog, hfinished, hunwritten⟩ :=
    exists_abandon_setf (s := s.withPort rest) ha (exec_engine_withPort (.inr rfl) rest hu) n
  obtain ⟨hstep, hreset, hparams, hport⟩ := step_resetDuring_encode hp ht
  refine ⟨_, hstep, hreset, hparams, hport, hlog.memLog_eq, fun k hk hkn b hb => ?finished, fun a hout => ?unwritten⟩
  case finished =>
    refine hfinished _ fun c hc b' hb' => ?_
    obtain ⟨k', hk', hkn', hword⟩ := word_of_mem_drop_chunks ha.valid hc
    rw [hword]
    exact byte_ne_of_word_ne (s := s.withPort rest) hwf (ha.word_reach hk).1 (ha.word_reach hk').1 hb hb' (by omega)
  case unwritten =>
    refine hunwritten a fun c hc => ?_
    obtain ⟨k, hk, hkn, hword⟩ := word_of_mem_take_chunks ha.valid hc
    rw [hword]
    exact hout k hk hkn

end Sys2Proof.Machine
end

section
/-! R35: the state right after reset. It is one that reset leaves as it is, so what reset does to a state holds of it. -/

namespace Sys2Proof.Machine

theorem registersReset_resetRegisters (s : State) : (resetRegisters s).RegistersReset :=
  ⟨resetRegisters_status s, resetRegisters_bufBase s, resetRegisters_bufCtrl s, resetRegisters_bufLen s,
    resetRegisters_nfields s, resetRegisters_val s, resetRegisters_res s, fun _ => rfl⟩

theorem resetRegisters_resetOf (p : Params) : resetRegisters (State.resetOf p) = State.resetOf p := rfl

theorem memSound_resetOf (p : Params) : (State.resetOf p).MemSound :=
  ⟨wf_reset p, fun _ hc => absurd hc List.not_mem_nil⟩

theorem wf_default : Params.default.wf = true := by decide

theorem inv_resetOf {p : Params} (hp : p.wf = true) : (State.resetOf p).Inv := by
  rw [← resetRegisters_resetOf]
  exact State.Inv.resetRegisters hp (memSound_resetOf p)

/-- Settles O2: the registers are those a reset leaves. -/
theorem resetStateHoldsTheResetValues : Obligations.ResetStateHoldsTheResetValues := by
  refine ⟨fun p => ⟨?registers, rfl, rfl⟩, rfl⟩
  case registers =>
    rw [← resetRegisters_resetOf]
    exact registersReset_resetRegisters _

/-- Settles O53: `State.Inv.resetRegisters`, at the state after reset itself. -/
theorem resetStateIsSound : Obligations.ResetStateIsSound :=
  ⟨fun _ => inv_resetOf, inv_resetOf wf_default⟩

end Sys2Proof.Machine
end
